-- ==== Sys2Proof/Word.lean ====
section
/-! DEFINITION. The word types of the block's interfaces (spec/30_encoding.md R80, R89;
spec/00_scope.md R8, R10). Bit 0 is the least significant bit of every word. -/

namespace Sys2Proof

/-- A 32-bit word: a frame word, a signal word, a coefficient word or register-bus data (R80). -/
abbrev Word := BitVec 32

/-- A 16-bit word: a sample, a raw sample code, a ring slot or a window offset (R80, R86). -/
abbrev Code := BitVec 16

/-- A 17-bit word address of the register bus (R51). -/
abbrev Addr := BitVec 17

/-- The 52-bit event word `{PORT[1:0], WE, ADDR[16:0], DATA[31:0]}` (R89). -/
abbrev EventWord := BitVec 52

end Sys2Proof
end

