-- ==== Sys2Proof/Config.lean ====
section
/-! DEFINITION. What one build of the block fixes (spec/00_scope.md R8, R9) and the free values of
the model (spec/41_ring.md R168). -/

namespace Sys2Proof

/-- The build parameter `RING_AW`, a natural number from 1 to 16 (R9), held as `RING_AW - 1` so
that no other value can be written down. -/
structure RingAw where
  minusOne : Fin 16
  deriving DecidableEq, Repr, Inhabited

/-- `RING_AW` itself, log2 of the ring capacity. -/
def RingAw.width (aw : RingAw) : Nat := aw.minusOne.val + 1

/-- `CAP = 2^RING_AW`, the number of ring slots (R9, R29). -/
def RingAw.cap (aw : RingAw) : Nat := 2 ^ aw.width

/-- `SMP_F`: fraction bits of a 16-bit sample, Q1.15 (R8). -/
def Config.smpF : Nat := 15

/-- `SIG_F`: fraction bits of a signal word, Q4.28 (R8). -/
def Config.sigF : Nat := 28

/-- `COEF_F`: fraction bits of a coefficient word, Q2.30 (R8). -/
def Config.coefF : Nat := 30

/-- `SIG_W`: width of a signal word and of every history word (R8). -/
def Config.sigW : Nat := 32

/-- `Q = 1/√2`, the quality factor of every stage (R7), which the host uses when it derives
coefficients (spec/40_filter.md R134). It is a real number: no state of the block holds it. -/
noncomputable def Config.qualityFactor : ℝ := 1 / √2

/-- The `RING_AW` of the build that `State.reset` belongs to: open in the spec (R9, D19), so it
has no value here (notes/assumptions/2.md). -/
opaque Config.ringAw : RingAw

/-- The `n`-th unspecified 16-bit value: what a read of a slot not written since the last `RESET`
returns (R168: "any 16-bit value", "need not be the same on two reads"; notes/assumptions/3.md). -/
opaque Config.freeCode : Nat → Code

end Sys2Proof
end

