-- ==== Sys2Proof/Syntax.lean ====
section
/-! DEFINITION. The seventeen operations of the block (spec/30_encoding.md R99), one constructor
per row of spec/opcode_table.json. Each is one event at an interface (spec/00_scope.md R5). -/

namespace Sys2Proof

/-- The four biquad stages (spec/10_state.md R20): 0 `HPL`, 1 `LPL`, 2 `HPR`, 3 `LPR`. -/
inductive Stage where
  | hpl | lpl | hpr | lpr
  deriving DecidableEq, Repr

/-- The five coefficients of a stage (R20): 0 `b0`, 1 `b1`, 2 `b2`, 3 `a1`, 4 `a2`. -/
inductive CoefIx where
  | b0 | b1 | b2 | a1 | a2
  deriving DecidableEq, Repr

/-- One operation, in the order of the opcode table, with the operands of R101. -/
inductive Instr where
  /-- `RESET`: the reset input (R260). -/
  | reset
  /-- `FRAME w`: one stereo frame word taken from `IN` (R122). -/
  | frame (w : Word)
  /-- `TICK d`: one timer fire with the code `d` on `ADC` (R162). -/
  | tick (d : Code)
  /-- `NOP`: a `CTRL` write with `CMD` = 0 (R129). -/
  | nop
  /-- `COMMIT`: shadow bank to active bank (R126). -/
  | commit
  /-- `CLRHIST`: zero the history (R127). -/
  | clrhist
  /-- `COMMITCLR`: both in one event (R128). -/
  | commitclr
  /-- `ARM`: enable the sampler (R161). -/
  | arm
  /-- `WRCOEF s, k, v`: write one shadow coefficient (R124). -/
  | wrcoef (s : Stage) (k : CoefIx) (v : Word)
  /-- `RDSTATUS` (R130). -/
  | rdstatus
  /-- `RDFRAMECNT` (R131). -/
  | rdframecnt
  /-- `RDCURSOR` (R163). -/
  | rdcursor
  /-- `RDCOEF s, k`: read one shadow coefficient (R125). -/
  | rdcoef (s : Stage) (k : CoefIx)
  /-- `RDSLOT i`: read one ring slot at window offset `i` (R164). -/
  | rdslot (i : Code)
  /-- `CMDRSVD c`: a `CTRL` write with a reserved command code (R132). -/
  | cmdrsvd (c : BitVec 4)
  /-- `RDRSVD a`: a read of a reserved address or of `CTRL` (R97). -/
  | rdrsvd (a : Addr)
  /-- `WRRSVD a, v`: a write to a reserved or read-only address (R97). -/
  | wrrsvd (a : Addr) (v : Word)
  deriving DecidableEq, Repr

/-- The mnemonic of spec/opcode_table.json. -/
def Instr.mnemonic : Instr → String
  | .reset => "RESET"
  | .frame _ => "FRAME"
  | .tick _ => "TICK"
  | .nop => "NOP"
  | .commit => "COMMIT"
  | .clrhist => "CLRHIST"
  | .commitclr => "COMMITCLR"
  | .arm => "ARM"
  | .wrcoef _ _ _ => "WRCOEF"
  | .rdstatus => "RDSTATUS"
  | .rdframecnt => "RDFRAMECNT"
  | .rdcursor => "RDCURSOR"
  | .rdcoef _ _ => "RDCOEF"
  | .rdslot _ => "RDSLOT"
  | .cmdrsvd _ => "CMDRSVD"
  | .rdrsvd _ => "RDRSVD"
  | .wrrsvd _ _ => "WRRSVD"

/-- Who causes an event (spec/00_scope.md R5). -/
inductive Agent where
  | stream | host | timer | resetInput
  deriving DecidableEq, Repr

/-- The agent of each operation (R5, and the column `agent` of R99). -/
def Instr.agent : Instr → Agent
  | .reset => .resetInput
  | .frame _ => .stream
  | .tick _ => .timer
  | .nop => .host
  | .commit => .host
  | .clrhist => .host
  | .commitclr => .host
  | .arm => .host
  | .wrcoef _ _ _ => .host
  | .rdstatus => .host
  | .rdframecnt => .host
  | .rdcursor => .host
  | .rdcoef _ _ => .host
  | .rdslot _ => .host
  | .cmdrsvd _ => .host
  | .rdrsvd _ => .host
  | .wrrsvd _ _ => .host

end Sys2Proof
end

