-- ==== Sys2Proof/Machine/AddressMap.lean ====
section
/-! DEFINITION. The register map of the block: word addresses, their fields, and which addresses
are reserved (spec/10_state.md R32; spec/30_encoding.md R90 to R97). -/

namespace Sys2Proof.Machine

/-- `CTRL`, write only (R91). -/
def ctrlAddr : Addr := 0x00000#17
/-- `STATUS`, read only (R92). -/
def statusAddr : Addr := 0x00001#17
/-- `FRAMECNT`, read only (R93). -/
def frameCntAddr : Addr := 0x00002#17
/-- `CURSOR`, read only (R94). -/
def cursorAddr : Addr := 0x00003#17

/-- The stage number in `ADDR[4:3]` (R20, R95). -/
def stageCode : Stage → BitVec 2
  | .hpl => 0#2
  | .lpl => 1#2
  | .hpr => 2#2
  | .lpr => 3#2

/-- The stage a number in `ADDR[4:3]` names; all four are used (R95). -/
def stageOfCode (b : BitVec 2) : Stage :=
  if b = 0#2 then .hpl else if b = 1#2 then .lpl else if b = 2#2 then .hpr else .lpr

/-- The coefficient index in `ADDR[2:0]` (R20, R95). -/
def coefIxCode : CoefIx → BitVec 3
  | .b0 => 0#3
  | .b1 => 1#3
  | .b2 => 2#3
  | .a1 => 3#3
  | .a2 => 4#3

/-- The coefficient an index in `ADDR[2:0]` names; 5, 6 and 7 are reserved (R95). -/
def coefIxOfCode (b : BitVec 3) : Option CoefIx :=
  if b = 0#3 then some .b0 else if b = 1#3 then some .b1 else if b = 2#3 then some .b2
  else if b = 3#3 then some .a1 else if b = 4#3 then some .a2 else none

/-- `COEF[s][k]` at `0x00020 + 8·s + k`, in binary `0_0000_0000_001s_skkk` (R95). -/
def coefAddr (s : Stage) (k : CoefIx) : Addr := 0x001#12 ++ stageCode s ++ coefIxCode k

/-- The coefficient register at an address, if it is one: `ADDR[16:5] = 0x001` and `ADDR[2:0] <= 4`
(R90). -/
def coefAt (a : Addr) : Option (Stage × CoefIx) :=
  if a.extractLsb' 5 12 = 0x001#12 then
    (coefIxOfCode (a.extractLsb' 0 3)).map fun k => (stageOfCode (a.extractLsb' 3 2), k)
  else none

/-- The address of ring window offset `i`, `0x10000 + i` (R96). -/
def slotAddr (i : Code) : Addr := 1#1 ++ i

/-- `ADDR[16] = 1`: the ring window `0x10000 .. 0x1FFFF` (R90, R96). -/
def inRingWindow (a : Addr) : Bool := a.extractLsb' 16 1 == 1#1

/-- A read of `a` decodes to `RDRSVD` (R90, R97; a read of the write-only `CTRL` is one). -/
def readReserved (a : Addr) : Bool :=
  a != statusAddr && a != frameCntAddr && a != cursorAddr && (coefAt a).isNone && !inRingWindow a

/-- A write to `a` decodes to `WRRSVD`: reserved, or read only (R90, R97). -/
def writeReserved (a : Addr) : Bool := a != ctrlAddr && (coefAt a).isNone

/-- The byte offset of word `a` on a byte-addressed platform bus, from the block's base (R51). -/
def byteOffset (a : Addr) : Nat := 4 * a.toNat

/-- The word address that a byte-addressed access forwards to the block: only an aligned access of
four bytes inside the map is one (R51, R55); any other must not be forwarded (R268). -/
def wordAddrOf (byteOff size : Nat) : Option Addr :=
  if byteOff % 4 = 0 ∧ size = 4 ∧ byteOff / 4 < 2 ^ 17 then some (BitVec.ofNat 17 (byteOff / 4))
  else none

end Sys2Proof.Machine
end

