-- ==== Sys2Proof/WellFormed.lean ====
section
/-! DEFINITION. Which terms of `Instr` are operations of the block: the operand ranges of the three
reserved rows (spec/30_encoding.md R90, R97, R98). Every other operand may take every value. -/

namespace Sys2Proof

/-- A reserved command code is 5 to 15 (R132), a `RDRSVD` names an address whose read is reserved and
a `WRRSVD` one whose write is (R97). -/
def Instr.wf : Instr → Bool
  | .reset => true
  | .frame _ => true
  | .tick _ => true
  | .nop => true
  | .commit => true
  | .clrhist => true
  | .commitclr => true
  | .arm => true
  | .wrcoef _ _ _ => true
  | .rdstatus => true
  | .rdframecnt => true
  | .rdcursor => true
  | .rdcoef _ _ => true
  | .rdslot _ => true
  | .cmdrsvd c => decide (5 ≤ c.toNat)
  | .rdrsvd a => Machine.readReserved a
  | .wrrsvd a _ => Machine.writeReserved a

end Sys2Proof
end

