-- ==== Sys2Proof/Decode.lean ====
section
/-! DEFINITION. The event word, its decoder and its encoder (spec/30_encoding.md R89, R90, R99), and
the opcode table of R100 as data. The decoder is total on all 52-bit words and rejects by name. -/

namespace Sys2Proof

open Machine

/-- Why an event word spells no event: a field that R89 says is zero is not. -/
inductive Reject where
  /-- `WE` set on an event of another port than `BUS`. -/
  | weOffBus
  /-- `ADDR` non-zero on an event of another port than `BUS`. -/
  | addrOffBus
  /-- A `TICK` with a bit above 15 in `DATA`. -/
  | tickDataHigh
  /-- A `RESET` with data. -/
  | resetData
  /-- A bus read with data. -/
  | readData
  deriving DecidableEq, Repr

/-- The result of decoding: an operation, or "invalid" (R89) with its reason. -/
inductive Decoded where
  | ok (i : Instr)
  | invalid (r : Reject)
  deriving DecidableEq, Repr

/-- `PORT`, bits 51:50 (R89). -/
def evPort (e : EventWord) : BitVec 2 := e.extractLsb' 50 2
/-- `WE`, bit 49 (R89). -/
def evWe (e : EventWord) : BitVec 1 := e.extractLsb' 49 1
/-- `ADDR`, bits 48:32 (R89). -/
def evAddr (e : EventWord) : Addr := e.extractLsb' 32 17
/-- `DATA`, bits 31:0 (R89). -/
def evData (e : EventWord) : Word := e.extractLsb' 0 32

/-- The event word of four fields, `PORT` in the high bits (R89). -/
def eventWord (port : BitVec 2) (we : BitVec 1) (addr : Addr) (data : Word) : EventWord :=
  port ++ we ++ addr ++ data

/-- The command of a `CTRL` write: `CMD` is `DATA[3:0]`, bits 31:4 are ignored (R90, R91). -/
def decodeCommand (d : Word) : Instr :=
  let cmd := d.extractLsb' 0 4
  if cmd = 0#4 then .nop
  else if cmd = 1#4 then .commit
  else if cmd = 2#4 then .clrhist
  else if cmd = 3#4 then .commitclr
  else if cmd = 4#4 then .arm
  else .cmdrsvd cmd

/-- A bus write `(1, a, d)` (R90). -/
def decodeWrite (a : Addr) (d : Word) : Instr :=
  if a = ctrlAddr then decodeCommand d
  else match coefAt a with
    | some (s, k) => .wrcoef s k d
    | none => .wrrsvd a d

/-- A bus read `(0, a, _)` (R90). -/
def decodeRead (a : Addr) : Instr :=
  if a = statusAddr then .rdstatus
  else if a = frameCntAddr then .rdframecnt
  else if a = cursorAddr then .rdcursor
  else match coefAt a with
    | some (s, k) => .rdcoef s k
    | none => if inRingWindow a then .rdslot (a.extractLsb' 0 16) else .rdrsvd a

/-- The operation an event word spells (R89, R90, R99). -/
def decode (e : EventWord) : Decoded :=
  if evPort e = 0#2 then
    if evWe e = 1#1 then .ok (decodeWrite (evAddr e) (evData e))
    else if evData e = 0#32 then .ok (decodeRead (evAddr e))
    else .invalid .readData
  else if evWe e = 1#1 then .invalid .weOffBus
  else if evAddr e ≠ 0#17 then .invalid .addrOffBus
  else if evPort e = 1#2 then .ok (.frame (evData e))
  else if evPort e = 2#2 then
    if (evData e).extractLsb' 16 16 = 0#16 then .ok (.tick ((evData e).extractLsb' 0 16))
    else .invalid .tickDataHigh
  else if evData e = 0#32 then .ok .reset
  else .invalid .resetData

/-- A `CTRL` write with command code `c`; the reserved bits 31:4 are written zero (R91). -/
def encodeCommand (c : BitVec 4) : EventWord := eventWord 0#2 1#1 ctrlAddr (0#28 ++ c)

/-- A bus read of `a`. -/
def encodeRead (a : Addr) : EventWord := eventWord 0#2 0#1 a 0#32

/-- The event word of an operation (R99, and the encodings its rule gives). -/
def encode : Instr → EventWord
  | .reset => eventWord 3#2 0#1 0#17 0#32
  | .frame w => eventWord 1#2 0#1 0#17 w
  | .tick d => eventWord 2#2 0#1 0#17 (0#16 ++ d)
  | .nop => encodeCommand 0#4
  | .commit => encodeCommand 1#4
  | .clrhist => encodeCommand 2#4
  | .commitclr => encodeCommand 3#4
  | .arm => encodeCommand 4#4
  | .wrcoef s k v => eventWord 0#2 1#1 (coefAddr s k) v
  | .rdstatus => encodeRead statusAddr
  | .rdframecnt => encodeRead frameCntAddr
  | .rdcursor => encodeRead cursorAddr
  | .rdcoef s k => encodeRead (coefAddr s k)
  | .rdslot i => encodeRead (slotAddr i)
  | .cmdrsvd c => encodeCommand c
  | .rdrsvd a => encodeRead a
  | .wrrsvd a v => eventWord 0#2 1#1 a v

/-- A row of the opcode table: the event word `e` is of the row when `e & mask = pat` and, where
`kLe4` is set, the field `k = EW[34:32]` is at most 4 (R100). -/
structure OpRow where
  mnemonic : String
  pat : EventWord
  mask : EventWord
  kLe4 : Bool
  deriving DecidableEq, Repr

/-- spec/opcode_table.json, row by row, in its order (R100). -/
def opRows : List OpRow :=
  [ ⟨"RESET", 0xC000000000000#52, 0xFFFFFFFFFFFFF#52, false⟩,
    ⟨"FRAME", 0x4000000000000#52, 0xFFFFF00000000#52, false⟩,
    ⟨"TICK", 0x8000000000000#52, 0xFFFFFFFFF0000#52, false⟩,
    ⟨"NOP", 0x2000000000000#52, 0xFFFFF0000000F#52, false⟩,
    ⟨"COMMIT", 0x2000000000001#52, 0xFFFFF0000000F#52, false⟩,
    ⟨"CLRHIST", 0x2000000000002#52, 0xFFFFF0000000F#52, false⟩,
    ⟨"COMMITCLR", 0x2000000000003#52, 0xFFFFF0000000F#52, false⟩,
    ⟨"ARM", 0x2000000000004#52, 0xFFFFF0000000F#52, false⟩,
    ⟨"WRCOEF", 0x2002000000000#52, 0xFFFE000000000#52, true⟩,
    ⟨"RDSTATUS", 0x0000100000000#52, 0xFFFFFFFFFFFFF#52, false⟩,
    ⟨"RDFRAMECNT", 0x0000200000000#52, 0xFFFFFFFFFFFFF#52, false⟩,
    ⟨"RDCURSOR", 0x0000300000000#52, 0xFFFFFFFFFFFFF#52, false⟩,
    ⟨"RDCOEF", 0x0002000000000#52, 0xFFFE0FFFFFFFF#52, true⟩,
    ⟨"RDSLOT", 0x1000000000000#52, 0xF0000FFFFFFFF#52, false⟩,
    ⟨"CMDRSVD", 0x2000000000000#52, 0xFFFFF00000000#52, false⟩,
    ⟨"RDRSVD", 0x0000000000000#52, 0xE0000FFFFFFFF#52, false⟩,
    ⟨"WRRSVD", 0x2000000000000#52, 0xE000000000000#52, false⟩ ]

/-- The event word is of the row (R100). -/
def OpRow.covers (r : OpRow) (e : EventWord) : Bool :=
  e &&& r.mask == r.pat && (!r.kLe4 || decide ((e.extractLsb' 32 3).toNat ≤ 4))

/-- The mnemonic of the first row that covers the event word (R100: "first match wins"). -/
def tableMnemonic (e : EventWord) : Option String :=
  (opRows.find? fun r => r.covers e).map OpRow.mnemonic

/-- The mnemonic of a decoded event word. -/
def Decoded.mnemonic : Decoded → Option String
  | .ok i => some i.mnemonic
  | .invalid _ => none

/-- An event word given as a number of `nbits` bits; a number that does not fit 52 bits is none. -/
def tableWord (nbits w : Nat) : Option EventWord :=
  if w % 2 ^ nbits < 2 ^ 52 then some (BitVec.ofNat 52 (w % 2 ^ nbits)) else none

/-- The operation the decoder reads from a word numbered as spec/opcode_table.json numbers it. An
event word is one word of 52 bits, so the table's numbering is the decoder's own. -/
def decodeTableWord (nbits w : Nat) : Option Instr :=
  match tableWord nbits w with
  | some e =>
    match decode e with
    | .ok i => some i
    | .invalid _ => none
  | none => none

end Sys2Proof
end

