-- ==== Sys2Proof/Machine/State.lean ====
section
/-! DEFINITION. The state of the block (spec/10_state.md R20, complete by its own words), the model's
own fields beside it, the reasons a step can stop, and the state after reset (R33). -/

namespace Sys2Proof.Machine

/-- The five coefficient words of one stage, each a `COEFW` (R21, R22). -/
structure CoefSet where
  b0 : Word
  b1 : Word
  b2 : Word
  a1 : Word
  a2 : Word
  deriving DecidableEq, Repr

/-- The two-sample input and output history of one stage, each a `SIG` (R23). -/
structure History where
  x1 : Word
  x2 : Word
  y1 : Word
  y2 : Word
  deriving DecidableEq, Repr

/-- A coefficient bank: one set per stage (R20). -/
structure Bank where
  hpl : CoefSet
  lpl : CoefSet
  hpr : CoefSet
  lpr : CoefSet
  deriving DecidableEq, Repr

/-- The history of the four stages (R20). -/
structure Histories where
  hpl : History
  lpl : History
  hpr : History
  lpr : History
  deriving DecidableEq, Repr

/-- The ring phase (R27); the encoding 3 never occurs, so there is no fourth value. -/
inductive Phase where
  | idle | armed | sampling
  deriving DecidableEq, Repr

/-- One listed slot of the ring memory: its code, and whether a `TICK` has written it since the last
`RESET` (R168; notes/assumptions/4.md). -/
structure Slot where
  code : Code
  fresh : Bool
  deriving DecidableEq, Repr

/-- The ring memory (R29): listed slots by rising index; an unlisted slot holds no value anything
is known of (R168, R261). -/
abbrev Memory := List (Nat × Slot)

/-- The state of the block. The first eight fields are the tuple of R20; the last five are the
model's own (INVENTORY.md, State; notes/assumptions/1.md, 2.md, 3.md, 5.md). -/
structure State where
  /-- `COEF_S`, the shadow bank (R21). -/
  coefS : Bank
  /-- `COEF_A`, the active bank (R22). -/
  coefA : Bank
  /-- `HIST` (R23). -/
  hist : Histories
  /-- `ISAT`, sticky (R25). -/
  isat : Bool
  /-- `FRAMECNT` (R26). -/
  frameCnt : Word
  /-- `RPHASE` (R27). -/
  rphase : Phase
  /-- `CURSOR` (R28). -/
  cursor : Word
  /-- `RING` (R29). -/
  ring : Memory
  /-- The build parameter `RING_AW` (R9): no operation changes it. -/
  ringAw : RingAw
  /-- How many unspecified values reads have taken so far (R168). -/
  freeCtr : Nat
  /-- The rest of the trace: event words still to come, the next one first (R6, R14). -/
  pending : List EventWord
  /-- The words emitted on `OUT`, oldest first (R12, R14). -/
  out : List Word
  /-- The data returned by bus reads, oldest first (R14). -/
  reads : List Word
  deriving DecidableEq, Repr

/-- The block has no fault state and no operation stops it (spec/60_exceptions.md R230), so there is no
reason a step can fault: no constructor. -/
inductive Fault where
  deriving DecidableEq, Repr

/-- Why a step has no meaning. -/
inductive Refusal where
  /-- Raised by a refused arm of `exec`: the operation has no meaning in this model. Safe. No arm raises
  it: all seventeen operations have their meaning. -/
  | notModelled (mnemonic : String)
  /-- Raised by `step` when the next word of the trace spells no event (R89: "a decoder of event words
  returns invalid for it"). Such a word cannot occur at the interfaces. Safe. -/
  | invalidEventWord (r : Reject)
  deriving DecidableEq, Repr

/-- Five zero coefficients (R33). -/
def CoefSet.zero : CoefSet := ⟨0#32, 0#32, 0#32, 0#32, 0#32⟩

/-- A zero history (R33, R34). -/
def History.zero : History := ⟨0#32, 0#32, 0#32, 0#32⟩

/-- A bank of twenty zero words (R33). -/
def Bank.zero : Bank := ⟨.zero, .zero, .zero, .zero⟩

/-- Sixteen zero history words (R33, R34). -/
def Histories.zero : Histories := ⟨.zero, .zero, .zero, .zero⟩

/-- The state right after the first `RESET` of a build with ring parameter `aw` (R33, R260): no slot
written, no event pending, nothing observed yet. -/
def State.resetOf (aw : RingAw) : State where
  coefS := .zero
  coefA := .zero
  hist := .zero
  isat := false
  frameCnt := 0#32
  rphase := .idle
  cursor := 0#32
  ring := []
  ringAw := aw
  freeCtr := 0
  pending := []
  out := []
  reads := []

/-- The machine right after reset, for a build whose `RING_AW` is left open. -/
def State.reset : State := State.resetOf Config.ringAw

/-- `CAP` of the build the state belongs to (R9). -/
def State.cap (s : State) : Nat := s.ringAw.cap

end Sys2Proof.Machine
end

