-- ==== Sys2Proof/Machine/Flags.lean ====
section
/-! DEFINITION. The one flag and the status word: `ISAT` and `STATUS` (spec/10_state.md R25;
spec/30_encoding.md R92; spec/40_filter.md R130). -/

namespace Sys2Proof.Machine

/-- `ISAT` after a frame whose four stages answered `f0` to `f3`: set by any of them, never cleared
(R25, R122). -/
def isatAfter (isat f0 f1 f2 f3 : Bool) : Bool := isat || (f0 || f1 || f2 || f3)

/-- `RPHASE` on the register bus: `Idle` 0, `Armed` 1, `Sampling` 2 (R27). -/
def phaseCode : Phase → BitVec 2
  | .idle => 0#2
  | .armed => 1#2
  | .sampling => 2#2

/-- The status word `{0 (29 bits), ISAT, RPHASE (2 bits)}` (R92, R130). -/
def statusWord (isat : Bool) (p : Phase) : Word := 0#29 ++ BitVec.ofBool isat ++ phaseCode p

end Sys2Proof.Machine
end

