-- ==== Sys2Proof/Machine/Arith.lean ====
section
/-! DEFINITION. The arithmetic primitives of spec/00_scope.md R11, over the mathematical integers:
nothing wraps silently. `sext_n` of a word is `BitVec.toInt`, `zext_n` is `BitVec.toNat`. -/

namespace Sys2Proof.Machine

/-- `trunc_n(v) = v mod 2^n`, as an `n`-bit word (R11). -/
def trunc (n : Nat) (v : Int) : BitVec n := BitVec.ofInt n v

/-- `sat_n(v)`: the nearest value of the signed `n`-bit range (R11). -/
def sat (n : Nat) (v : Int) : Int :=
  if v < -(2 ^ (n - 1)) then -(2 ^ (n - 1))
  else if 2 ^ (n - 1) - 1 < v then 2 ^ (n - 1) - 1
  else v

/-- `rhu(v, s) = floor((v + 2^(s-1)) / 2^s)`: an exact half goes toward plus infinity (R11). The
division of `Int` by a positive number rounds toward minus infinity. -/
def rhu (v : Int) (s : Nat) : Int := (v + 2 ^ (s - 1)) / 2 ^ s

end Sys2Proof.Machine
end

