-- ==== Sys2Proof/Machine/Operands.lean ====
section
/-! DEFINITION. The operand forms: fields of the data words and their conversion to the values the
rules compute with (spec/30_encoding.md R81 to R88, R96). -/

namespace Sys2Proof.Machine

/-- The left sample field of a frame word, bits 15:0 (R53, R81). -/
def leftField (w : Word) : Code := w.extractLsb' 0 16

/-- The right sample field of a frame word, bits 31:16 (R53, R81). -/
def rightField (w : Word) : Code := w.extractLsb' 16 16

/-- `unpack(w) = (sext_16(w[15:0]), sext_16(w[31:16]))`, left then right (R82). -/
def unpack (w : Word) : Int × Int := ((leftField w).toInt, (rightField w).toInt)

/-- `pack(l, r) = {trunc_16(r), trunc_16(l)}` (R82). -/
def pack (l r : Int) : Word := trunc 16 r ++ trunc 16 l

/-- `to_sig(s) = s · 2^13`: sample to signal word, exact (R87). -/
def toSig (s : Int) : Int := s * 2 ^ (Config.sigF - Config.smpF)

/-- `to_s16(v) = sat_16(rhu(v, 13))`: signal word to sample, the clamp (R88). -/
def toS16 (v : Int) : Int := sat 16 (rhu v (Config.sigF - Config.smpF))

/-- `zext_16`: a ring slot as read data, bits 31:16 zero (R56, R164). -/
def zextCode (c : Code) : Word := 0#16 ++ c

/-- `CURSOR & (CAP - 1)`: the slot the next `TICK` writes (R28, R52, R162). -/
def writeSlot (aw : RingAw) (cursor : Word) : Nat := cursor.toNat &&& (aw.cap - 1)

/-- `i mod CAP`: the slot a window offset reads; its bits above `RING_AW` are ignored (R96, R164). -/
def readSlot (aw : RingAw) (i : Code) : Nat := i.toNat % aw.cap

/-- The bytes of a word on a platform that serialises it: little-endian, byte 0 is bits 7:0 (R54). -/
def wordBytes (w : Word) : List (BitVec 8) :=
  [w.extractLsb' 0 8, w.extractLsb' 8 8, w.extractLsb' 16 8, w.extractLsb' 24 8]

end Sys2Proof.Machine
end

