-- ==== Sys2Proof/Machine/Ops.lean ====
section
/-! DEFINITION. The named operations over registers, history, ring memory and streams that the
meanings share (spec/00_scope.md R12; spec/40_filter.md R120; spec/41_ring.md R162, R164;
spec/70_reset_and_hazards.md R260). There is no taking of an exception and no return from one: the
block raises none and has no program counter (spec/60_exceptions.md R230, R241, R242). -/

namespace Sys2Proof.Machine

/-! ## Coefficient registers -/

/-- The word `[s][k]` of one stage's set (R20). -/
def CoefSet.get (c : CoefSet) : CoefIx → Word
  | .b0 => c.b0
  | .b1 => c.b1
  | .b2 => c.b2
  | .a1 => c.a1
  | .a2 => c.a2

/-- One word of a stage's set replaced. -/
def CoefSet.put (c : CoefSet) (k : CoefIx) (v : Word) : CoefSet :=
  match k with
  | .b0 => { c with b0 := v }
  | .b1 => { c with b1 := v }
  | .b2 => { c with b2 := v }
  | .a1 => { c with a1 := v }
  | .a2 => { c with a2 := v }

/-- The set of one stage. -/
def Bank.stage (b : Bank) : Stage → CoefSet
  | .hpl => b.hpl
  | .lpl => b.lpl
  | .hpr => b.hpr
  | .lpr => b.lpr

/-- Read of a coefficient register `COEF[s][k]` (R12). -/
def Bank.get (b : Bank) (s : Stage) (k : CoefIx) : Word := (b.stage s).get k

/-- Write of a coefficient register: that one word (R12, R124). -/
def Bank.put (b : Bank) (s : Stage) (k : CoefIx) (v : Word) : Bank :=
  match s with
  | .hpl => { b with hpl := b.hpl.put k v }
  | .lpl => { b with lpl := b.lpl.put k v }
  | .hpr => { b with hpr := b.hpr.put k v }
  | .lpr => { b with lpr := b.lpr.put k v }

/-- The history of one stage. -/
def Histories.stage (h : Histories) : Stage → History
  | .hpl => h.hpl
  | .lpl => h.lpl
  | .hpr => h.hpr
  | .lpr => h.lpr

/-! ## Ring memory -/

/-- What is listed for slot `n`. -/
def Memory.find : Memory → Nat → Option Slot
  | [], _ => none
  | (m, v) :: rest, n => if n = m then some v else Memory.find rest n

/-- The physical content of slot `n`, where the model knows it: `RESET` leaves it alone (R262). -/
def Memory.code (m : Memory) (n : Nat) : Option Code := (Memory.find m n).map Slot.code

/-- `MemRead(n, 1)` (R12): the code of a slot written since the last `RESET`; none where the content
is unspecified (R168). -/
def Memory.read (m : Memory) (n : Nat) : Option Code :=
  match Memory.find m n with
  | some v => if v.fresh then some v.code else none
  | none => none

/-- `MemWrite(n, 1, d)` (R12): slot `n` holds `d`, written since the last `RESET`. The list stays in
canonical form. -/
def Memory.write : Memory → Nat → Code → Memory
  | [], n, d => [(n, ⟨d, true⟩)]
  | (m, v) :: rest, n, d =>
    if n < m then (n, ⟨d, true⟩) :: (m, v) :: rest
    else if n = m then (n, ⟨d, true⟩) :: rest
    else (m, v) :: Memory.write rest n d

/-- The ring memory across a `RESET`: no code is changed, and no slot counts as written any more
(R262: "a reader must treat every slot as never written"). -/
def Memory.stale (m : Memory) : Memory := m.map fun e => (e.1, { e.2 with fresh := false })

/-- The canonical form: slot indices strictly rising. An unlisted slot reads as no value, so no listed
entry could equal it. -/
abbrev Memory.wf (m : Memory) : Prop := List.Pairwise (fun a b => a.1 < b.1) m

/-! ## The stage function -/

/-- What one step of a stage gives: its output, whether it saturated, and the stage's new history. -/
structure StageOut where
  y : Word
  saturated : Bool
  hist : History
  deriving DecidableEq, Repr

/-- The exact accumulator of R120, in units of `2^-58`: the feedback coefficients are subtracted. -/
def stageAcc (c : CoefSet) (h : History) (x : Word) : Int :=
  c.b0.toInt * x.toInt + c.b1.toInt * h.x1.toInt + c.b2.toInt * h.x2.toInt
    - c.a1.toInt * h.y1.toInt - c.a2.toInt * h.y2.toInt

/-- `yr = rhu(acc, 30)`: the one rounding of a stage (R120). -/
def stageRounded (c : CoefSet) (h : History) (x : Word) : Int := rhu (stageAcc c h x) Config.coefF

/-- `BIQUAD(s, x)` with the coefficients and history of stage `s` (R120). -/
def biquad (c : CoefSet) (h : History) (x : Word) : StageOut :=
  let yr := stageRounded c h x
  let y := sat Config.sigW yr
  { y := trunc 32 y
    saturated := decide (yr ≠ y)
    hist := { x1 := x, x2 := h.x1, y1 := trunc 32 y, y2 := h.y1 } }

/-- What one lane gives: both stages' results and the output sample. -/
structure LaneOut where
  hp : StageOut
  lp : StageOut
  sample : Int
  deriving DecidableEq, Repr

/-- One lane on the sample `x`: the highpass stage feeds the lowpass stage, and the clamp comes once, at
the end (R122, R123, R138). -/
def lane (chp clp : CoefSet) (hhp hlp : History) (x : Int) : LaneOut :=
  let hp := biquad chp hhp (trunc 32 (toSig x))
  let lp := biquad clp hlp hp.y
  { hp := hp, lp := lp, sample := toS16 lp.y.toInt }

/-- The left lane of a state on the frame word `w`: stages 0 and 1 (R123). -/
def State.leftLane (s : State) (w : Word) : LaneOut :=
  lane s.coefA.hpl s.coefA.lpl s.hist.hpl s.hist.lpl (unpack w).1

/-- The right lane of a state on the frame word `w`: stages 2 and 3 (R123). -/
def State.rightLane (s : State) (w : Word) : LaneOut :=
  lane s.coefA.hpr s.coefA.lpr s.hist.hpr s.hist.lpr (unpack w).2

/-! ## State operations -/

/-- `emit OUT(w)`: append `w` to the output stream (R12). -/
def State.emit (s : State) (w : Word) : State := { s with out := s.out ++ [w] }

/-- `return v`: the read data of a bus read (R12). -/
def State.answer (s : State) (v : Word) : State := { s with reads := s.reads ++ [v] }

/-- `COEF_S[s][k] <- v` (R124). -/
def State.putShadow (s : State) (st : Stage) (k : CoefIx) (v : Word) : State :=
  { s with coefS := s.coefS.put st k v }

/-- `COEF_A <- COEF_S`, all twenty words in one step (R126). -/
def State.publish (s : State) : State := { s with coefA := s.coefS }

/-- All sixteen history words to zero (R127). -/
def State.clearHist (s : State) : State := { s with hist := .zero }

/-- `FRAME(w)` (R122): both lanes, the histories, `ISAT`, `FRAMECNT`, one word on `OUT`. -/
def State.processFrame (s : State) (w : Word) : State :=
  let l := s.leftLane w
  let r := s.rightLane w
  State.emit
    { s with
      hist := { hpl := l.hp.hist, lpl := l.lp.hist, hpr := r.hp.hist, lpr := r.lp.hist }
      isat := isatAfter s.isat l.hp.saturated l.lp.saturated r.hp.saturated r.lp.saturated
      frameCnt := s.frameCnt + 1#32 }
    (pack l.sample r.sample)

/-- `ARM` (R161): only from `Idle`; there is no reverse transition. -/
def State.armRing (s : State) : State :=
  match s.rphase with
  | .idle => { s with rphase := .armed }
  | .armed => s
  | .sampling => s

/-- The write of a `TICK` (R162): the slot `CURSOR & (CAP - 1)`, the cursor, the phase, as one step
(R61). -/
def State.storeCode (s : State) (d : Code) : State :=
  { s with
    ring := Memory.write s.ring (writeSlot s.ringAw s.cursor) d
    cursor := s.cursor + 1#32
    rphase := .sampling }

/-- `TICK(d)` (R162): ignored in `Idle`, else a write. -/
def State.timerFire (s : State) (d : Code) : State :=
  match s.rphase with
  | .idle => s
  | .armed => s.storeCode d
  | .sampling => s.storeCode d

/-- `RDSLOT(i)` (R164): the slot zero-extended; a slot not written since the last `RESET` gives the next
free value in bits 15:0 (R168). -/
def State.readRing (s : State) (i : Code) : State :=
  match Memory.read s.ring (readSlot s.ringAw i) with
  | some c => s.answer (zextCode c)
  | none => State.answer { s with freeCtr := s.freeCtr + 1 } (zextCode (Config.freeCode s.freeCtr))

/-- `RESET()` (R260): the values of R33. `RING` is not written; what was written before no longer counts
as written. What the outside has seen and what it is about to do are not state of the block. -/
def State.doReset (s : State) : State :=
  { s with
    coefS := .zero
    coefA := .zero
    hist := .zero
    isat := false
    frameCnt := 0#32
    rphase := .idle
    cursor := 0#32
    ring := Memory.stale s.ring }

end Sys2Proof.Machine
end

