-- ==== Sys2Proof/Machine/Filter.lean ====
section
/-! DEFINITION. The filter family (spec/40_filter.md): `FRAME`, the coefficient and command operations,
the status reads. None of them can fail (R230). -/

namespace Sys2Proof.Machine

/-- `FRAME w` (R122). -/
def execFrame (w : Word) (s : State) : Host.Outcome State Fault Refusal := .next (s.processFrame w)

/-- `NOP` changes no state (R129). -/
def execNop (s : State) : Host.Outcome State Fault Refusal := .next s

/-- `COMMIT`: the active bank becomes the shadow bank; the history is kept (R126). -/
def execCommit (s : State) : Host.Outcome State Fault Refusal := .next s.publish

/-- `CLRHIST`: zero history, nothing else (R127). -/
def execClrhist (s : State) : Host.Outcome State Fault Refusal := .next s.clearHist

/-- `COMMITCLR`: `COMMIT` and `CLRHIST` as one event (R128). -/
def execCommitclr (s : State) : Host.Outcome State Fault Refusal := .next s.publish.clearHist

/-- `WRCOEF s, k, v`: one shadow word; every value is accepted (R124). -/
def execWrcoef (st : Stage) (k : CoefIx) (v : Word) (s : State) :
    Host.Outcome State Fault Refusal := .next (s.putShadow st k v)

/-- `RDCOEF s, k`: returns the shadow word (R125). -/
def execRdcoef (st : Stage) (k : CoefIx) (s : State) : Host.Outcome State Fault Refusal :=
  .next (s.answer (s.coefS.get st k))

/-- `RDSTATUS`: returns `ISAT * 4 + RPHASE` and clears nothing (R130). -/
def execRdstatus (s : State) : Host.Outcome State Fault Refusal :=
  .next (s.answer (statusWord s.isat s.rphase))

/-- `RDFRAMECNT` (R131). -/
def execRdframecnt (s : State) : Host.Outcome State Fault Refusal := .next (s.answer s.frameCnt)

/-- `CMDRSVD c`: a reserved command code changes no state, exactly as `NOP` (R132). -/
def execCmdrsvd (_c : BitVec 4) (s : State) : Host.Outcome State Fault Refusal := .next s

end Sys2Proof.Machine
end

