-- ==== Sys2Proof/Machine/Ring.lean ====
section
/-! DEFINITION. The ring family (spec/41_ring.md): `ARM`, `TICK`, `RDCURSOR`, `RDSLOT`. -/

namespace Sys2Proof.Machine

/-- `ARM` (R161). -/
def execArm (s : State) : Host.Outcome State Fault Refusal := .next s.armRing

/-- `TICK d` (R162). -/
def execTick (d : Code) (s : State) : Host.Outcome State Fault Refusal := .next (s.timerFire d)

/-- `RDCURSOR`: all 32 bits as one value (R163, R57). -/
def execRdcursor (s : State) : Host.Outcome State Fault Refusal := .next (s.answer s.cursor)

/-- `RDSLOT i` (R164). -/
def execRdslot (i : Code) (s : State) : Host.Outcome State Fault Refusal := .next (s.readRing i)

end Sys2Proof.Machine
end

