-- ==== Sys2Proof/Machine/System.lean ====
section
/-! DEFINITION. `RESET` (spec/70_reset_and_hazards.md R260) and the reserved bus accesses
(spec/30_encoding.md R97). -/

namespace Sys2Proof.Machine

/-- `RESET` (R260). -/
def execReset (s : State) : Host.Outcome State Fault Refusal := .next s.doReset

/-- `RDRSVD a`: returns 0 and changes no state (R97). -/
def execRdrsvd (_a : Addr) (s : State) : Host.Outcome State Fault Refusal := .next (s.answer 0#32)

/-- `WRRSVD a, v`: ignored (R97). -/
def execWrrsvd (_a : Addr) (_v : Word) (s : State) : Host.Outcome State Fault Refusal := .next s

end Sys2Proof.Machine
end

