-- ==== Sys2Proof/Machine/Dispatch.lean ====
section
/-! DEFINITION. One arm per operation of the opcode table. -/

namespace Sys2Proof.Machine

def exec (i : Instr) (s : State) : Host.Outcome State Fault Refusal :=
  match i with
  | .reset => Sys2Proof.Machine.execReset s
  | .frame w => Sys2Proof.Machine.execFrame w s
  | .tick d => Sys2Proof.Machine.execTick d s
  | .nop => Sys2Proof.Machine.execNop s
  | .commit => Sys2Proof.Machine.execCommit s
  | .clrhist => Sys2Proof.Machine.execClrhist s
  | .commitclr => Sys2Proof.Machine.execCommitclr s
  | .arm => Sys2Proof.Machine.execArm s
  | .wrcoef st k v => Sys2Proof.Machine.execWrcoef st k v s
  | .rdstatus => Sys2Proof.Machine.execRdstatus s
  | .rdframecnt => Sys2Proof.Machine.execRdframecnt s
  | .rdcursor => Sys2Proof.Machine.execRdcursor s
  | .rdcoef st k => Sys2Proof.Machine.execRdcoef st k s
  | .rdslot off => Sys2Proof.Machine.execRdslot off s
  | .cmdrsvd c => Sys2Proof.Machine.execCmdrsvd c s
  | .rdrsvd a => Sys2Proof.Machine.execRdrsvd a s
  | .wrrsvd a v => Sys2Proof.Machine.execWrrsvd a v s

end Sys2Proof.Machine
end

