-- ==== Sys2Proof/Machine/Step.lean ====
section
/-! DEFINITION. One step: the next event of the trace is decoded and performed, whole
(spec/00_scope.md R6, R14). -/

namespace Sys2Proof.Machine

/-- One step of a trace. With no event pending nothing happens (spec/42_host_sequences.md R208: "an
agent that stops issuing events stops the corresponding datapath"; notes/assumptions/6.md). A word that
spells no event has no step (R89). -/
def step (s : State) : Host.Outcome State Fault Refusal :=
  match s.pending with
  | [] => .next s
  | e :: rest =>
    match decode e with
    | .ok i => exec i { s with pending := rest }
    | .invalid r => .refused (.invalidEventWord r)

/-- `s` with the word put in front of the trace, so that the next step performs it. A number that does
not fit an event word is put there as the all-ones word, which spells no event. -/
def State.withFetchWord (s : State) (nbits w : Nat) : State :=
  { s with pending := (tableWord nbits w).getD (BitVec.allOnes 52) :: s.pending }

end Sys2Proof.Machine
end

