-- ==== Sys2Proof/Machine/HostContract.lean ====
section
/-! DEFINITION. The pseudo-operations and the host's side of the contract (spec/30_encoding.md R102;
spec/40_filter.md R134, R135; spec/42_host_sequences.md). Nothing here is state or behaviour of the
block: these are the sequences of operations a host issues and the pure functions it computes. The
functions are written over any ordered field with a floor: at the reals they are the spec's, with the
formulas of R134 (`highpassAt`, `lowpassAt`, `rebuild`); at the rationals they can be evaluated
(notes/assumptions/8.md). -/

namespace Sys2Proof.Machine

/-! ## Sequences of operations -/

/-- `BLOCK w0, ..., w(B-1)`: one `FRAME` per word, in index order (R191). -/
def blockEvents (ws : List Word) : List Instr := ws.map Instr.frame

/-- The `WRCOEF` events that load one set into one stage. -/
def loadStage (st : Stage) (c : CoefSet) : List Instr :=
  [.wrcoef st .b0 c.b0, .wrcoef st .b1 c.b1, .wrcoef st .b2 c.b2, .wrcoef st .a1 c.a1,
    .wrcoef st .a2 c.a2]

/-- `LOADSET hp, lp`: the twenty `WRCOEF` events, both lanes alike (R198). The rule allows any order. -/
def loadSet (hp lp : CoefSet) : List Instr :=
  loadStage .hpl hp ++ loadStage .hpr hp ++ loadStage .lpl lp ++ loadStage .lpr lp

/-- `REBUILD` on quantised sets: `LOADSET`, then `COMMIT`, or `COMMITCLR` when the host parameter
`REBUILD_CLEARS_HISTORY` is true (R9, R198). -/
def rebuildEvents (clears : Bool) (hp lp : CoefSet) : List Instr :=
  loadSet hp lp ++ [if clears then .commitclr else .commit]

/-- The window offset of entry `j` of a `WINDOW K` that read the cursor value `c`:
`(c - K + j) mod 2^16` (R202). -/
def windowOffset (c : Word) (k j : Nat) : Code :=
  (c - BitVec.ofNat 32 k + BitVec.ofNat 32 j).setWidth 16

/-- The next event of a `WINDOW K`, given the data its events have returned so far: first the `RDCURSOR`,
which returns `c`, then the `RDSLOT` of each entry; none when all `K` have been read (R102, R202). -/
def windowNext (k : Nat) : List Word → Option Instr
  | [] => some .rdcursor
  | c :: ws => if ws.length < k then some (.rdslot (windowOffset c k ws.length)) else none

/-- The window of a finished `WINDOW K`: what it returned after the cursor value, oldest first (R202). -/
def windowResult (returned : List Word) : List Word := returned.tail

/-- The `RDSLOT` events of `WINDOW K` after its `RDCURSOR` returned `c` (R202). -/
def windowReads (c : Word) (k : Nat) : List Instr :=
  (List.range k).map fun j => .rdslot (windowOffset c k j)

/-! ## Coefficients -/

variable {K : Type} [Field K] [LinearOrder K] [FloorRing K]

/-- Nearest integer, an exact half going away from zero (R135). -/
def roundAway (x : K) : Int := if 0 ≤ x then ⌊x + 1 / 2⌋ else -⌊-x + 1 / 2⌋

/-- `q30(c) = trunc_32(sat_32(round(c · 2^30)))` (R135). -/
def q30 (c : K) : Word := trunc 32 (sat 32 (roundAway (c * 2 ^ Config.coefF)))

/-- Five coefficients before quantisation. -/
structure RealSet (K : Type) where
  b0 : K
  b1 : K
  b2 : K
  a1 : K
  a2 : K
  deriving DecidableEq, Repr

/-- The highpass set of R134 from `cos(omega)` and `alpha`. -/
def highpassSet (cosOmega alpha : K) : RealSet K :=
  let a0 := 1 + alpha
  { b0 := (1 + cosOmega) / 2 / a0
    b1 := -(1 + cosOmega) / a0
    b2 := (1 + cosOmega) / 2 / a0
    a1 := -2 * cosOmega / a0
    a2 := (1 - alpha) / a0 }

/-- The lowpass set of R134 from `cos(omega)` and `alpha`. -/
def lowpassSet (cosOmega alpha : K) : RealSet K :=
  let a0 := 1 + alpha
  { b0 := (1 - cosOmega) / 2 / a0
    b1 := (1 - cosOmega) / a0
    b2 := (1 - cosOmega) / 2 / a0
    a1 := -2 * cosOmega / a0
    a2 := (1 - alpha) / a0 }

/-- A set quantised by `q30` (R198). -/
def RealSet.quantise (c : RealSet K) : CoefSet := ⟨q30 c.b0, q30 c.b1, q30 c.b2, q30 c.a1, q30 c.a2⟩

/-! ### In real numbers

The formulas of R134 as the spec has them, in real numbers and so not by evaluation. -/

/-- `omega = 2·π·f / fs` (R134). -/
noncomputable def omegaAt (f fs : ℝ) : ℝ := 2 * Real.pi * f / fs

/-- `alpha` of R134 from the quality factor `Q = 1/√2` of R7: `sin(omega) / (2·Q)`, which is
`sin(omega) / √2` (`alphaAt_eq`). -/
noncomputable def alphaAt (f fs : ℝ) : ℝ := Real.sin (omegaAt f fs) / (2 * Config.qualityFactor)

/-- The highpass coefficients of R134 at the cutoff `f` and the sample rate `fs`. -/
noncomputable def highpassAt (f fs : ℝ) : RealSet ℝ :=
  highpassSet (Real.cos (omegaAt f fs)) (alphaAt f fs)

/-- The lowpass coefficients of R134 at the cutoff `f` and the sample rate `fs`. -/
noncomputable def lowpassAt (f fs : ℝ) : RealSet ℝ :=
  lowpassSet (Real.cos (omegaAt f fs)) (alphaAt f fs)

/-- `REBUILD lowCut, highCut, fs` (R102, R198): the `LOADSET` of the quantised coefficients of R134, the
highpass stages at `lowCut` and the lowpass stages at `highCut`, then the commit. -/
noncomputable def rebuild (clears : Bool) (lowCut highCut fs : ℝ) : List Instr :=
  rebuildEvents clears (highpassAt lowCut fs).quantise (lowpassAt highCut fs).quantise

/-! ## The control path -/

/-- The constants of one control channel and of the mapping (R190). -/
structure ControlParams (K : Type) where
  adcMax : K
  vref : K
  centerLow : K
  halfRangeLow : K
  centerHigh : K
  halfRangeHigh : K
  floor : K
  ceiling : K
  margin : K
  threshold : K
  deriving DecidableEq, Repr

/-- The host's active cutoffs (R31, R197). -/
structure ControlState (K : Type) where
  lowCut : K
  highCut : K
  deriving DecidableEq, Repr

/-- `lin(v, center, halfRange) = center + halfRange · (2·v/Vref - 1)` (R196). -/
def linMap (p : ControlParams K) (v center halfRange : K) : K :=
  center + halfRange * (2 * v / p.vref - 1)

/-- `mapToCutoffs` (R196): the margin is forced last. -/
def mapToCutoffs (p : ControlParams K) (codeLow codeHigh : K) : ControlState K :=
  let tLow := linMap p (codeLow * p.vref / p.adcMax) p.centerLow p.halfRangeLow
  let tHigh := linMap p (codeHigh * p.vref / p.adcMax) p.centerHigh p.halfRangeHigh
  let low := if tLow < p.floor then p.floor else tLow
  let high := if p.ceiling < tHigh then p.ceiling else tHigh
  { lowCut := low, highCut := if high ≤ low + p.margin then low + p.margin else high }

/-- `differs by more than the threshold`, strictly (R197). -/
def exceeds (threshold target active : K) : Bool :=
  decide (threshold < target - active) || decide (threshold < active - target)

/-- `maybeRebuild` (R197): the new active state, and the events of the `REBUILD` if there is one.
`rebuildAt` gives the events of a `REBUILD` at two cutoffs. -/
def maybeRebuild (p : ControlParams K) (rebuildAt : ControlState K → List Instr)
    (active target : ControlState K) : ControlState K × List Instr :=
  if exceeds p.threshold target.lowCut active.lowCut
      || exceeds p.threshold target.highCut active.highCut then
    (target, rebuildAt target)
  else (active, [])

/-- The whole control path at the sample rate `fs`: `read` gave the two codes, then `mapToCutoffs` and
`maybeRebuild` with the `REBUILD` of R198 (R192 step 5). -/
noncomputable def controlPath (p : ControlParams ℝ) (clears : Bool) (fs : ℝ) (active : ControlState ℝ)
    (codeLow codeHigh : ℝ) : ControlState ℝ × List Instr :=
  maybeRebuild p (fun a => rebuild clears a.lowCut a.highCut fs) active (mapToCutoffs p codeLow codeHigh)

/-- The events of one loop iteration (R192): the `BLOCK` of a successful fill, none on a capture timeout
(R233), then whatever the control path issues. -/
def iterationEvents (filled : Option (List Word)) (control : List Instr) : List Instr :=
  (match filled with
    | some ws => blockEvents ws
    | none => []) ++ control

/-! ## The load path -/

/-- `LoadMonitor.measure` (R200). With `totalTime = 0` the source gives no ratio: none. -/
def loadRatio (iterationStart processingEnd previousStart : K) : Option K :=
  let total := iterationStart - previousStart
  if total = 0 then none
  else
    let r := (processingEnd - iterationStart) / total
    some (if r < 0 then 0 else if 1 < r then 1 else r)

/-- The three sleep tiers (R201). -/
inductive Backoff where
  | longSleep | mediumSleep | shortSleep
  deriving DecidableEq, Repr

/-- `chooseBackoff` with its two thresholds (R190, R201). -/
def chooseBackoff (high mid ratio : K) : Backoff :=
  if high < ratio then .longSleep else if mid < ratio then .mediumSleep else .shortSleep

end Sys2Proof.Machine
end

