-- ==== Sys2Proof/Safety.lean ====
section
/-! DEFINITION. What a good state is, and what it is to perform a list of operations: the terms in which
the statements speak. No operation of the block can fail (spec/60_exceptions.md R230), so a run is safe
when every word of its trace spells an event. -/

namespace Sys2Proof.Machine

/-- The input history of a lowpass stage is the output history of the highpass stage before it
(spec/10_state.md R24). -/
abbrev Histories.cascaded (h : Histories) : Prop :=
  h.lpl.x1 = h.hpl.y1 ∧ h.lpl.x2 = h.hpl.y2 ∧ h.lpr.x1 = h.hpr.y1 ∧ h.lpr.x2 = h.hpr.y2

/-- Every listed slot is a slot of the ring: its index is below `CAP` (R29). -/
abbrev State.ringInRange (s : State) : Prop := ∀ e ∈ s.ring, e.1 < s.cap

/-- Every slot with a logical index below the cursor has been written since the last `RESET`
(spec/20_memory.md R61). -/
abbrev State.writtenBelowCursor (s : State) : Prop :=
  ∀ n < s.cap, n < s.cursor.toNat → (Memory.read s.ring n).isSome

/-- Before `Sampling` nothing has been written since the last `RESET` (spec/41_ring.md R160). -/
abbrev State.quietBeforeSampling (s : State) : Prop :=
  s.rphase ≠ .sampling → s.cursor = 0#32 ∧ ∀ e ∈ s.ring, e.2.fresh = false

/-- The invariant of the block: what holds in every state reachable from reset. -/
abbrev State.Inv (s : State) : Prop :=
  Memory.wf s.ring ∧ s.ringInRange ∧ s.hist.cascaded ∧ s.writtenBelowCursor ∧ s.quietBeforeSampling

/-- The words of the trace still to come all spell events: such a run is never refused. -/
abbrev State.traceSpellsEvents (s : State) : Prop :=
  ∀ e ∈ s.pending, ∃ i, decode e = .ok i

/-- The rounded result of a stage does not fit a signal word (spec/40_filter.md R120, R121 law 6). -/
abbrev stageOverflows (c : CoefSet) (h : History) (x : Word) : Prop :=
  stageRounded c h x < -(2 ^ 31) ∨ 2 ^ 31 - 1 < stageRounded c h x

/-- At least one of the four stage results of `FRAME w` does not fit a signal word (spec/10_state.md
R25). -/
abbrev State.frameOverflows (s : State) (w : Word) : Prop :=
  stageOverflows s.coefA.hpl s.hist.hpl (trunc 32 (toSig (unpack w).1)) ∨
  stageOverflows s.coefA.lpl s.hist.lpl (s.leftLane w).hp.y ∨
  stageOverflows s.coefA.hpr s.hist.hpr (trunc 32 (toSig (unpack w).2)) ∨
  stageOverflows s.coefA.lpr s.hist.lpr (s.rightLane w).hp.y

/-- A list of operations performed one after the other (R60: each sees the state left by the one
before). -/
def execAll : List Instr → State → Host.Outcome State Fault Refusal
  | [], s => .next s
  | i :: rest, s =>
    match exec i s with
    | .next t => execAll rest t
    | .fault r => .fault r
    | .refused r => .refused r

end Sys2Proof.Machine

namespace Sys2Proof

/-- The operation is a `FRAME`. -/
def Instr.isFrame : Instr → Bool
  | .frame _ => true
  | .reset => false
  | .tick _ => false
  | .nop => false
  | .commit => false
  | .clrhist => false
  | .commitclr => false
  | .arm => false
  | .wrcoef _ _ _ => false
  | .rdstatus => false
  | .rdframecnt => false
  | .rdcursor => false
  | .rdcoef _ _ => false
  | .rdslot _ => false
  | .cmdrsvd _ => false
  | .rdrsvd _ => false
  | .wrrsvd _ _ => false

/-- The operation is a `TICK`. -/
def Instr.isTick : Instr → Bool
  | .tick _ => true
  | .reset => false
  | .frame _ => false
  | .nop => false
  | .commit => false
  | .clrhist => false
  | .commitclr => false
  | .arm => false
  | .wrcoef _ _ _ => false
  | .rdstatus => false
  | .rdframecnt => false
  | .rdcursor => false
  | .rdcoef _ _ => false
  | .rdslot _ => false
  | .cmdrsvd _ => false
  | .rdrsvd _ => false
  | .wrrsvd _ _ => false

/-- The operation is a bus read, which returns one word (R58). -/
def Instr.isRead : Instr → Bool
  | .reset => false
  | .frame _ => false
  | .tick _ => false
  | .nop => false
  | .commit => false
  | .clrhist => false
  | .commitclr => false
  | .arm => false
  | .wrcoef _ _ _ => false
  | .rdstatus => true
  | .rdframecnt => true
  | .rdcursor => true
  | .rdcoef _ _ => true
  | .rdslot _ => true
  | .cmdrsvd _ => false
  | .rdrsvd _ => true
  | .wrrsvd _ _ => false

/-- The code of a `TICK`. -/
def Instr.tickCode : Instr → Option Code
  | .tick d => some d
  | .reset => none
  | .frame _ => none
  | .nop => none
  | .commit => none
  | .clrhist => none
  | .commitclr => none
  | .arm => none
  | .wrcoef _ _ _ => none
  | .rdstatus => none
  | .rdframecnt => none
  | .rdcursor => none
  | .rdcoef _ _ => none
  | .rdslot _ => none
  | .cmdrsvd _ => none
  | .rdrsvd _ => none
  | .wrrsvd _ _ => none

/-- The codes that the `TICK`s of a list without `RESET` write, in order: those fired while the ring is
enabled. `enabled` says whether it is enabled before the list (`RPHASE` is not `Idle`). -/
def writtenCodes : Bool → List Instr → List Code
  | _, [] => []
  | enabled, i :: rest =>
    if i = .arm then writtenCodes true rest
    else
      match i.tickCode with
      | some d => if enabled then d :: writtenCodes enabled rest else writtenCodes enabled rest
      | none => writtenCodes enabled rest

/-- How many `FRAME` operations a list holds. -/
def frameCount (is : List Instr) : Nat := is.countP Instr.isFrame

/-- How many `TICK` operations a list holds. -/
def tickCount (is : List Instr) : Nat := is.countP Instr.isTick

/-- The operation is one of the filter datapath (R69): its state is `COEF_S`, `COEF_A`, `HIST`, `ISAT`
and `FRAMECNT`. -/
def Instr.isFilter : Instr → Bool
  | .frame _ => true
  | .commit => true
  | .clrhist => true
  | .commitclr => true
  | .wrcoef _ _ _ => true
  | .rdcoef _ _ => true
  | .rdframecnt => true
  | .reset => false
  | .tick _ => false
  | .nop => false
  | .arm => false
  | .rdstatus => false
  | .rdcursor => false
  | .rdslot _ => false
  | .cmdrsvd _ => false
  | .rdrsvd _ => false
  | .wrrsvd _ _ => false

/-- The operation is one of the ring datapath (R69): its state is `RPHASE`, `CURSOR` and `RING`. -/
def Instr.isRing : Instr → Bool
  | .tick _ => true
  | .arm => true
  | .rdcursor => true
  | .rdslot _ => true
  | .reset => false
  | .frame _ => false
  | .nop => false
  | .commit => false
  | .clrhist => false
  | .commitclr => false
  | .wrcoef _ _ _ => false
  | .rdstatus => false
  | .rdframecnt => false
  | .rdcoef _ _ => false
  | .cmdrsvd _ => false
  | .rdrsvd _ => false
  | .wrrsvd _ _ => false

end Sys2Proof

namespace Sys2Proof.Machine

/-- The filter datapath's state (R69). -/
abbrev State.sameFilter (s t : State) : Prop :=
  t.coefS = s.coefS ∧ t.coefA = s.coefA ∧ t.hist = s.hist ∧ t.isat = s.isat ∧
    t.frameCnt = s.frameCnt

/-- The ring datapath's state (R69). -/
abbrev State.sameRing (s t : State) : Prop :=
  t.rphase = s.rphase ∧ t.cursor = s.cursor ∧ t.ring = s.ring ∧ t.ringAw = s.ringAw

end Sys2Proof.Machine
end

