-- ==== Sys2Proof/Machine/HostRun.lean ====
section
/-! DEFINITION. A host that chooses its next event by the data its events have returned, with the events
of the other agents in between (spec/30_encoding.md R102: "other agents' events may interleave between
the members"). -/

namespace Sys2Proof.Machine

/-- A run of a host whose next event is `next` of the data returned so far. `gaps` are the operations of
the other agents before each of its events; the run ends when they are used up or the host is done. The
answer is the state and the data returned to the host; none where an operation does not complete. -/
def hostRun (next : List Word → Option Instr) :
    List (List Instr) → List Word → State → Option (State × List Word)
  | [], returned, s => some (s, returned)
  | gap :: gaps, returned, s =>
    match execAll gap s with
    | .next t =>
      match next returned with
      | none => hostRun next gaps returned t
      | some i =>
        match exec i t with
        | .next u => hostRun next gaps (returned ++ u.reads.drop t.reads.length) u
        | .fault _ => none
        | .refused _ => none
    | .fault _ => none
    | .refused _ => none

/-- `WINDOW K` (R202), with the operations of the other agents before each of its `K + 1` events. -/
def windowRun (k : Nat) (gaps : List (List Instr)) (s : State) : Option (State × List Word) :=
  hostRun (windowNext k) gaps [] s

end Sys2Proof.Machine
end

