-- ==== Sys2Proof/Machine/Signals.lean ====
section
/-! DEFINITION. The signal-level interface (spec/20_memory.md R71): which events one clock cycle is, and
what the block's outputs are in it. The block itself works on events (spec/00_scope.md R14); this file
only says how cycles become a trace. What the spec leaves open in time (R275) is an input of the
description, `Timing`, and a depth (notes/assumptions/12.md). -/

namespace Sys2Proof.Machine

/-- The input signals of one clock cycle (R71). -/
structure Cycle where
  rst : Bool
  busValid : Bool
  busWe : Bool
  busAddr : Addr
  busWdata : Word
  inValid : Bool
  inData : Word
  outReady : Bool
  tick : Bool
  adc : Code
  deriving DecidableEq, Repr

/-- What the spec leaves open in a cycle (R275): whether the block is able to take a word from `IN`, how
many results come to `OUT`, whether a word on `OUT` is offered, whether read data appear on `bus_rdata`;
and, of a cycle in reset, whether the words emitted and not yet taken, and the reads performed and not yet
answered, outlast it. On these two points the spec is silent, and the model leaves both open
(notes/assumptions/12.md). -/
structure Timing where
  accepts : Bool
  emits : Nat
  offers : Bool
  responds : Bool
  keepsOut : Bool
  keepsReads : Bool
  deriving DecidableEq, Repr

/-- The block at its pins: its state; the results of words taken from `IN` that have not come to `OUT`, the
words on `OUT` that its consumer has not taken, and the data of reads not yet answered, each oldest first;
and how many words the block is able to keep (notes/assumptions/12.md). -/
structure Pins where
  block : State
  flight : List Word
  waiting : List Word
  unanswered : List Word
  depth : Nat
  deriving DecidableEq, Repr

/-- The output signals of one clock cycle (R71) and the block after it. A data signal that has no meaning
in the cycle is none (spec/93_implementation_defined.md U19). -/
structure CycleOut where
  inReady : Bool
  outValid : Bool
  outData : Option Word
  busRdata : Option Word
  next : Pins
  deriving DecidableEq, Repr

/-- The event word of the bus transaction on the signals; the write data are ignored on a read. -/
def Cycle.busEvent (c : Cycle) : EventWord :=
  if c.busWe then eventWord 0#2 1#1 c.busAddr c.busWdata else encodeRead c.busAddr

/-- How many words the block keeps: results on their way, and words that wait on `OUT`. -/
def Pins.held (p : Pins) : Nat := p.flight.length + p.waiting.length

/-- `in_ready`: held at 0 while `rst = 1` (R71); otherwise a word is taken only where there is room for its
result: the block keeps fewer words than it is able to, or hands one over in this cycle. So the block stops
accepting while the consumer of `OUT` is not ready, and discards nothing (R68). -/
def Pins.inReady (p : Pins) (c : Cycle) (t : Timing) : Bool :=
  !c.rst && t.accepts &&
    (decide (p.held < p.depth) ||
      (c.outReady && t.offers && (!p.waiting.isEmpty || decide (0 < t.emits))))

/-- The events of a cycle, in one order of the many. With `rst = 1` the cycle is one `RESET` and nothing
else: the block ignores the other inputs (R71). -/
def Pins.events (p : Pins) (c : Cycle) (t : Timing) : List EventWord :=
  if c.rst then [encode .reset]
  else
    (if c.busValid then [c.busEvent] else [])
      ++ (if c.inValid && p.inReady c t then [encode (.frame c.inData)] else [])
      ++ (if c.tick then [encode (.tick c.adc)] else [])

/-- The orders in which the events of a cycle may be performed: every one (spec/60_exceptions.md R239). -/
abbrev Pins.mayPerform (p : Pins) (c : Cycle) (t : Timing) (es : List EventWord) : Prop :=
  es.Perm (p.events c t)

/-- The event words performed one after the other, each presented as the next word of the trace. -/
def runWords : List EventWord → State → Host.Outcome State Fault Refusal
  | [], s => .next s
  | e :: rest, s =>
    match step { s with pending := e :: s.pending } with
    | .next t => runWords rest t
    | .fault r => .fault r
    | .refused r => .refused r

/-- The results on their way when the cycle's events have left the block in `s`, the newest last. -/
def Pins.onTheWay (p : Pins) (s : State) : List Word := p.flight ++ s.out.drop p.block.out.length

/-- The words on `OUT` in the cycle: those that waited, and the results that come to it. -/
def Pins.onOut (p : Pins) (t : Timing) (s : State) : List Word :=
  p.waiting ++ (p.onTheWay s).take t.emits

/-- `out_valid`: held at 0 while `rst = 1`; otherwise a word is on `OUT` and is offered (R71). -/
def Pins.outValid (p : Pins) (c : Cycle) (t : Timing) (s : State) : Bool :=
  !c.rst && t.offers && !(p.onOut t s).isEmpty

/-- `out_data` (R71): the oldest word on `OUT`. -/
def Pins.outData (p : Pins) (c : Cycle) (t : Timing) (s : State) : Option Word :=
  if p.outValid c t s then (p.onOut t s).head? else none

/-- The results on their way after the cycle. A word that has been taken from `IN` but whose result has not
been emitted when reset comes is lost (R260). -/
def Pins.flightAfter (p : Pins) (c : Cycle) (t : Timing) (s : State) : List Word :=
  if c.rst then [] else (p.onTheWay s).drop t.emits

/-- The words that wait on `OUT` after the cycle: a cycle with `out_valid = out_ready = 1` hands one over
(R71). Whether emitted words outlast a cycle in reset is left open, the model's choice
(notes/assumptions/12.md). -/
def Pins.waitingAfter (p : Pins) (c : Cycle) (t : Timing) (s : State) : List Word :=
  if c.rst then (if t.keepsOut then p.waiting else [])
  else if p.outValid c t s && c.outReady then (p.onOut t s).tail else p.onOut t s

/-- The data of the reads that have no answer before the cycle's: of those performed before, and in it. -/
def Pins.toAnswer (p : Pins) (s : State) : List Word :=
  p.unanswered ++ s.reads.drop p.block.reads.length

/-- Read data appear in the cycle. A read performed before a cycle in reset may be answered in that cycle,
the model's choice where the spec is silent (notes/assumptions/12.md). -/
def Pins.answers (p : Pins) (t : Timing) (s : State) : Bool := t.responds && !(p.toAnswer s).isEmpty

/-- `bus_rdata` (R71): the data of the oldest read not yet answered. When they appear is open (R275). -/
def Pins.busRdata (p : Pins) (t : Timing) (s : State) : Option Word :=
  if p.answers t s then (p.toAnswer s).head? else none

/-- The data of the reads not answered after the cycle. Whether they outlast a cycle in reset is left
open, the model's choice where the spec is silent (notes/assumptions/12.md). -/
def Pins.unansweredAfter (p : Pins) (c : Cycle) (t : Timing) (s : State) : List Word :=
  if c.rst && !t.keepsReads then []
  else if p.answers t s then (p.toAnswer s).tail else p.toAnswer s

/-- One clock cycle whose events are performed in the order `es`: the outputs, and the block after it. -/
def Pins.clock (p : Pins) (c : Cycle) (t : Timing) (es : List EventWord) : Option CycleOut :=
  match runWords es p.block with
  | .next s =>
    some
      { inReady := p.inReady c t
        outValid := p.outValid c t s
        outData := p.outData c t s
        busRdata := p.busRdata t s
        next :=
          { block := s
            flight := p.flightAfter c t s
            waiting := p.waitingAfter c t s
            unanswered := p.unansweredAfter c t s
            depth := p.depth } }
  | .fault _ => none
  | .refused _ => none

end Sys2Proof.Machine
end

