-- ==== Sys2Proof/Certificates/Slice0/Obligations.lean ====
section
/-! DEFINITION. The statements for the provers. Each docstring names the rules of spec/ it formalises, or
says what of it is the model's own. No statement rests on the value of `Config.ringAw`, `Config.freeCode`
or of the field `freeCtr`. -/

open Sys2Proof Sys2Proof.Machine

/-! ## Encoding -/

/-- R89, R90, R99: decoding the event word of a well-formed operation gives that operation, for every
operand. The encoder writes zero to the ignored bits of a `CTRL` write (R91). -/
def Obligations.DecodeInvertsEncode : Prop :=
  ∀ i : Instr, i.wf = true → decode (encode i) = .ok i

/-- R89, R90, R91: what the decoder answers is well-formed, and encoding it gives the same word, but for
bits 31:4 of a `CTRL` write, which the block ignores. -/
def Obligations.EncodeInvertsDecode : Prop :=
  ∀ (e : EventWord) (i : Instr), decode e = .ok i →
    i.wf = true ∧
    (encode i = e ∨
      (evPort e = 0#2 ∧ evWe e = 1#1 ∧ evAddr e = ctrlAddr ∧
        encode i = eventWord 0#2 1#1 ctrlAddr (0#28 ++ (evData e).extractLsb' 0 4)))

/-- R100: the decoder, written from the fields of R89 and R90, agrees on every 52-bit word with the first
row of the opcode table that covers the word; no row covers exactly the words that spell no event. -/
def Obligations.DecodeFollowsOpcodeTable : Prop :=
  ∀ e : EventWord, (decode e).mnemonic = tableMnemonic e

/-- R89: the ports of an event word, and the words that spell no event. -/
def Obligations.EventWordPortsAndInvalidWords : Prop :=
  (∀ w : Word, decode (eventWord 1#2 0#1 0#17 w) = .ok (.frame w)) ∧
  (∀ d : Code, decode (eventWord 2#2 0#1 0#17 (0#16 ++ d)) = .ok (.tick d)) ∧
  decode (eventWord 3#2 0#1 0#17 0#32) = .ok .reset ∧
  (∀ (a : Addr) (d : Word), decode (eventWord 0#2 1#1 a d) = .ok (decodeWrite a d)) ∧
  (∀ a : Addr, decode (eventWord 0#2 0#1 a 0#32) = .ok (decodeRead a)) ∧
  (∀ e : EventWord, (∃ r, decode e = .invalid r) ↔
    (evPort e ≠ 0#2 ∧ (evWe e ≠ 0#1 ∨ evAddr e ≠ 0#17)) ∨
    (evPort e = 0#2 ∧ evWe e = 0#1 ∧ evData e ≠ 0#32) ∨
    (evPort e = 2#2 ∧ (evData e).extractLsb' 16 16 ≠ 0#16) ∨
    (evPort e = 3#2 ∧ evData e ≠ 0#32))

/-- From R90, R97, R164: the decode of a bus transaction `(WE, ADDR, DATA)`, row by row of R90's table, but
that the operand of `RDSLOT` is the 16-bit offset `ADDR[15:0]` of R164, where R90 writes
`ADDR[RING_AW-1:0]`: the model's reading, notes/assumptions/14.md. -/
def Obligations.BusTransactionDecode : Prop :=
  ∀ (a : Addr) (d : Word),
    (a = 0x00000#17 →
      (d.extractLsb' 0 4 = 0#4 → decode (eventWord 0#2 1#1 a d) = .ok .nop) ∧
      (d.extractLsb' 0 4 = 1#4 → decode (eventWord 0#2 1#1 a d) = .ok .commit) ∧
      (d.extractLsb' 0 4 = 2#4 → decode (eventWord 0#2 1#1 a d) = .ok .clrhist) ∧
      (d.extractLsb' 0 4 = 3#4 → decode (eventWord 0#2 1#1 a d) = .ok .commitclr) ∧
      (d.extractLsb' 0 4 = 4#4 → decode (eventWord 0#2 1#1 a d) = .ok .arm) ∧
      (5 ≤ (d.extractLsb' 0 4).toNat →
        decode (eventWord 0#2 1#1 a d) = .ok (.cmdrsvd (d.extractLsb' 0 4)))) ∧
    (a.extractLsb' 5 12 = 0x001#12 → (a.extractLsb' 0 3).toNat ≤ 4 →
      ∃ s k, stageCode s = a.extractLsb' 3 2 ∧ coefIxCode k = a.extractLsb' 0 3 ∧
        decode (eventWord 0#2 1#1 a d) = .ok (.wrcoef s k d) ∧
        decode (eventWord 0#2 0#1 a 0#32) = .ok (.rdcoef s k)) ∧
    (a ≠ 0x00000#17 →
      ¬(a.extractLsb' 5 12 = 0x001#12 ∧ (a.extractLsb' 0 3).toNat ≤ 4) →
      decode (eventWord 0#2 1#1 a d) = .ok (.wrrsvd a d)) ∧
    (a = 0x00001#17 → decode (eventWord 0#2 0#1 a 0#32) = .ok .rdstatus) ∧
    (a = 0x00002#17 → decode (eventWord 0#2 0#1 a 0#32) = .ok .rdframecnt) ∧
    (a = 0x00003#17 → decode (eventWord 0#2 0#1 a 0#32) = .ok .rdcursor) ∧
    (a.extractLsb' 16 1 = 1#1 →
      decode (eventWord 0#2 0#1 a 0#32) = .ok (.rdslot (a.extractLsb' 0 16))) ∧
    (a ≠ 0x00001#17 → a ≠ 0x00002#17 → a ≠ 0x00003#17 →
      ¬(a.extractLsb' 5 12 = 0x001#12 ∧ (a.extractLsb' 0 3).toNat ≤ 4) →
      a.extractLsb' 16 1 ≠ 1#1 → decode (eventWord 0#2 0#1 a 0#32) = .ok (.rdrsvd a))

/-- Vectors V9, V10, V11 and V16: event words written out in the spec decode to the operations the spec
says they spell. -/
def Obligations.SpecEventWordsDecode : Prop :=
  decode 0xC000000000000#52 = .ok .reset ∧
  decode 0x4000012345678#52 = .ok (.frame 0x12345678#32) ∧
  decode 0x80000000000FF#52 = .ok (.tick 0x00FF#16) ∧
  decode 0x20000FFFFFFF2#52 = .ok .clrhist ∧
  decode 0x200338527D1F5#52 = .ok (.wrcoef .hpr .a1 0x8527D1F5#32) ∧
  decode 0x0003C00000000#52 = .ok (.rdcoef .lpr .a2) ∧
  decode 0x1000F00000000#52 = .ok (.rdslot 15#16) ∧
  decode 0x2000000000009#52 = .ok (.cmdrsvd 9#4) ∧
  decode 0x0002500000000#52 = .ok (.rdrsvd 0x00025#17) ∧
  decode 0x300000000BEEF#52 = .ok (.wrrsvd 0x10000#17 0x0000BEEF#32) ∧
  decode 0x6000000000000#52 = .invalid .weOffBus

/-! ## The step -/

/-- From R6, R14, R89: a step takes the next event word of the trace and performs the operation it spells.
That a word which spells no event (R89: "invalid") makes the step refuse it by name is the model's choice
(notes/assumptions/7.md), and so is that an empty trace leaves the state alone (notes/assumptions/6.md). A
word put in front of the trace is the next one taken (notes/assumptions/6.md). -/
def Obligations.StepPerformsNextEvent : Prop :=
  (∀ (s : State) (e : EventWord) (rest : List EventWord) (i : Instr),
    s.pending = e :: rest → decode e = .ok i → step s = exec i { s with pending := rest }) ∧
  (∀ (s : State) (e : EventWord) (rest : List EventWord) (r : Reject),
    s.pending = e :: rest → decode e = .invalid r → step s = .refused (.invalidEventWord r)) ∧
  (∀ s : State, s.pending = [] → step s = .next s) ∧
  (∀ (s : State) (nbits w : Nat) (i : Instr),
    decodeTableWord nbits w = some i → step (s.withFetchWord nbits w) = exec i s)

/-- R230: every operation is defined on every state and every operand, completes, and leaves a state. -/
def Obligations.EveryOperationCompletes : Prop :=
  ∀ (i : Instr) (s : State), ∃ t, exec i s = .next t

/-! ## Formats and arithmetic -/

/-- R82: `pack` and `unpack`, and that each undoes the other. -/
def Obligations.PackUnpackRoundTrip : Prop :=
  (∀ w : Word, unpack w = ((w.extractLsb' 0 16).toInt, (w.extractLsb' 16 16).toInt)) ∧
  (∀ l r : Int, -(2 ^ 15) ≤ l → l ≤ 2 ^ 15 - 1 → -(2 ^ 15) ≤ r → r ≤ 2 ^ 15 - 1 →
    ((pack l r).toNat : Int) = (r % 2 ^ 16) * 2 ^ 16 + l % 2 ^ 16 ∧ unpack (pack l r) = (l, r)) ∧
  (∀ w : Word, pack (unpack w).1 (unpack w).2 = w)

/-- R87: the input conversion, exact and inside the signal format. -/
def Obligations.InputConversionIsExact : Prop :=
  ∀ s : Int, -(2 ^ 15) ≤ s → s ≤ 2 ^ 15 - 1 →
    toSig s = s * 2 ^ 13 ∧ -(2 ^ 28) ≤ toSig s ∧ toSig s ≤ 2 ^ 28 - 2 ^ 13 ∧
      (trunc 32 (toSig s)).toInt = s * 2 ^ 13

/-- R88: the output conversion rounds to the nearest sample, a half going up, and then limits; the last
clause says that the clamp sets no flag: `ISAT` after a frame depends on the stage results alone. -/
def Obligations.OutputConversionRoundsAndClamps : Prop :=
  (∀ v : Int, -(2 ^ 31) ≤ v → v ≤ 2 ^ 31 - 1 →
    (∃ q : Int, 8192 * q ≤ v + 4096 ∧ v + 4096 < 8192 * q + 8192 ∧
      toS16 v = max (-32768) (min 32767 q)) ∧
    (v ≤ -(2 ^ 28) → toS16 v = -32768) ∧
    (2 ^ 28 - 2 ^ 12 ≤ v → toS16 v = 32767)) ∧
  (∀ (s : State) (w : Word), ∃ t, exec (.frame w) s = .next t ∧
    (t.isat = true ↔ s.isat = true ∨ s.frameOverflows w))

/-- R121: the six laws of the stage arithmetic. -/
def Obligations.StageArithmeticLaws : Prop :=
  (∀ (v : Int) (s : Nat), 1 ≤ s → rhu (v * 2 ^ s) s = v) ∧
  (∀ (v : Int) (s : Nat), 1 ≤ s →
    2 * v - 2 ^ s < 2 * (2 ^ s * rhu v s) ∧ 2 * (2 ^ s * rhu v s) ≤ 2 * v + 2 ^ s ∧
    rhu (2 ^ (s - 1)) s = 1 ∧ rhu (-(2 ^ (s - 1))) s = 0 ∧
    rhu (3 * 2 ^ (s - 1)) s = 2 ∧ rhu (-3 * 2 ^ (s - 1)) s = -1) ∧
  ((∀ (u v : Int) (s : Nat), 1 ≤ s → u ≤ v → rhu u s ≤ rhu v s) ∧
    (∀ (u v : Int) (n : Nat), 1 ≤ n → u ≤ v → sat n u ≤ sat n v) ∧
    (∀ (v : Int) (n : Nat), 1 ≤ n → sat n (sat n v) = sat n v)) ∧
  ((∀ (v : Int) (s : Nat), 1 ≤ s →
      (rhu (-v) s ≠ -rhu v s ↔ ∃ m : Int, v = (2 * m + 1) * 2 ^ (s - 1))) ∧
    (∃ (c : CoefSet) (x y : Word), x.toInt = -y.toInt ∧
      (biquad c .zero x).y.toInt ≠ -(biquad c .zero y).y.toInt)) ∧
  (∀ (c : CoefSet) (h : History) (x : Word),
    |stageAcc c h x| ≤ 5 * 2 ^ 62 ∧ (5 * 2 ^ 62 : Int) < 2 ^ 65 ∧
      -(2 ^ 65) ≤ stageAcc c h x + 2 ^ 29 ∧ stageAcc c h x + 2 ^ 29 < 2 ^ 65 ∧
      |stageRounded c h x| ≤ 5 * 2 ^ 32 + 1) ∧
  (∀ (c : CoefSet) (h : History) (x : Word),
    ((biquad c h x).saturated = true ↔
      2 ^ 31 - 1 < stageRounded c h x ∨ stageRounded c h x < -(2 ^ 31)) ∧
    ((biquad c h x).saturated = true ↔
      2 ^ 61 - 2 ^ 29 ≤ stageAcc c h x ∨ stageAcc c h x < -(2 ^ 61) - 2 ^ 29))

/-- R120: one step of a stage, in integers: the exact accumulator, one rounding (a half going up), one
saturation, the history shift, and when it reports saturation. -/
def Obligations.StageComputesRecurrence : Prop :=
  ∀ (c : CoefSet) (h : History) (x : Word), ∃ acc yr : Int,
    acc = c.b0.toInt * x.toInt + c.b1.toInt * h.x1.toInt + c.b2.toInt * h.x2.toInt
      - c.a1.toInt * h.y1.toInt - c.a2.toInt * h.y2.toInt ∧
    2 ^ 30 * yr ≤ acc + 2 ^ 29 ∧ acc + 2 ^ 29 < 2 ^ 30 * (yr + 1) ∧
    (biquad c h x).y.toInt = max (-(2 ^ 31)) (min (2 ^ 31 - 1) yr) ∧
    ((biquad c h x).saturated = true ↔ yr ≠ (biquad c h x).y.toInt) ∧
    (biquad c h x).hist = { x1 := x, x2 := h.x1, y1 := (biquad c h x).y, y2 := h.y1 }

/-- From R133: a stage that does not saturate is within half a unit of `2^-28` of the exact recurrence on
the same words, and the output conversion is within half a unit of `2^-15` where it does not clamp. -/
def Obligations.RoundingErrorsAreLocal : Prop :=
  (∀ (c : CoefSet) (h : History) (x : Word), (biquad c h x).saturated = false →
    2 * |2 ^ 30 * (biquad c h x).y.toInt - stageAcc c h x| ≤ 2 ^ 30) ∧
  (∀ v : Int, -32768 * 2 ^ 13 - 2 ^ 12 ≤ v → v < 32767 * 2 ^ 13 + 2 ^ 12 →
    2 * |2 ^ 13 * toS16 v - v| ≤ 2 ^ 13)

/-! ## `FRAME` -/

/-- R122: `FRAME w` on every state: the four stages in their order, the clamp, `ISAT`, `FRAMECNT`, one
word on `OUT`, and nothing else. -/
def Obligations.FrameRunsBothCascades : Prop :=
  ∀ (s : State) (w : Word),
    let b0 := biquad s.coefA.hpl s.hist.hpl (trunc 32 (toSig (unpack w).1))
    let b1 := biquad s.coefA.lpl s.hist.lpl b0.y
    let b2 := biquad s.coefA.hpr s.hist.hpr (trunc 32 (toSig (unpack w).2))
    let b3 := biquad s.coefA.lpr s.hist.lpr b2.y
    exec (.frame w) s = .next
      { s with
        hist := ⟨b0.hist, b1.hist, b2.hist, b3.hist⟩
        isat := s.isat || (b0.saturated || b1.saturated || b2.saturated || b3.saturated)
        frameCnt := s.frameCnt + 1#32
        out := s.out ++ [pack (toS16 b1.y.toInt) (toS16 b3.y.toInt)] }

/-- R123: the left output and left histories depend on the left samples, left coefficients and left
histories alone, the right ones on the right; within a lane the highpass output of this frame is the
lowpass input of this frame. -/
def Obligations.LanesAreIndependent : Prop :=
  ∀ (s s' : State) (w w' : Word), ∃ t t' o o',
    exec (.frame w) s = .next t ∧ exec (.frame w') s' = .next t' ∧
    t.out = s.out ++ [o] ∧ t'.out = s'.out ++ [o'] ∧
    (s.coefA.hpl = s'.coefA.hpl → s.coefA.lpl = s'.coefA.lpl → s.hist.hpl = s'.hist.hpl →
      s.hist.lpl = s'.hist.lpl → leftField w = leftField w' →
      t.hist.hpl = t'.hist.hpl ∧ t.hist.lpl = t'.hist.lpl ∧ leftField o = leftField o') ∧
    (s.coefA.hpr = s'.coefA.hpr → s.coefA.lpr = s'.coefA.lpr → s.hist.hpr = s'.hist.hpr →
      s.hist.lpr = s'.hist.lpr → rightField w = rightField w' →
      t.hist.hpr = t'.hist.hpr ∧ t.hist.lpr = t'.hist.lpr ∧ rightField o = rightField o') ∧
    t.hist.lpl.x1 = t.hist.hpl.y1 ∧ t.hist.lpr.x1 = t.hist.hpr.y1

/-- R25: `ISAT` after any operation: set by a `FRAME` with a stage result that did not fit, cleared by
`RESET` alone, otherwise as before. -/
def Obligations.SaturationFlagIsSticky : Prop :=
  ∀ (i : Instr) (s : State), ∃ t, exec i s = .next t ∧
    (t.isat = true ↔
      i ≠ .reset ∧ (s.isat = true ∨ ∃ w, i = .frame w ∧ s.frameOverflows w))

/-- R139: after `RESET`, `CLRHIST` or `COMMITCLR` the history is zero, and from a zero history any number
of silent frames emits silence, keeps the history zero, leaves `ISAT` alone and is counted. -/
def Obligations.SilenceStaysSilent : Prop :=
  (∀ (i : Instr) (s : State), i = .reset ∨ i = .clrhist ∨ i = .commitclr →
    ∃ t, exec i s = .next t ∧ t.hist = ⟨⟨0, 0, 0, 0⟩, ⟨0, 0, 0, 0⟩, ⟨0, 0, 0, 0⟩, ⟨0, 0, 0, 0⟩⟩) ∧
  (∀ (s : State) (n : Nat),
    s.hist = ⟨⟨0, 0, 0, 0⟩, ⟨0, 0, 0, 0⟩, ⟨0, 0, 0, 0⟩, ⟨0, 0, 0, 0⟩⟩ →
    ∃ t, execAll (List.replicate n (.frame 0#32)) s = .next t ∧
      t.out = s.out ++ List.replicate n 0#32 ∧ t.hist = s.hist ∧ t.isat = s.isat ∧
      t.frameCnt = s.frameCnt + BitVec.ofNat 32 n)

/-- R141: a stage with the identity set returns its input; the two conversions undo each other; with the
identity set in all four stages `FRAME w` emits `w`, whatever the history, and does not set `ISAT`. -/
def Obligations.IdentitySetPassesFrames : Prop :=
  (∀ (h : History) (x : Word),
    (biquad ⟨0x40000000#32, 0#32, 0#32, 0#32, 0#32⟩ h x).y = x ∧
    (biquad ⟨0x40000000#32, 0#32, 0#32, 0#32, 0#32⟩ h x).saturated = false) ∧
  (∀ s : Int, -(2 ^ 15) ≤ s → s ≤ 2 ^ 15 - 1 → toS16 (toSig s) = s) ∧
  (∀ (s : State) (w : Word),
    (∀ st, s.coefA.stage st = ⟨0x40000000#32, 0#32, 0#32, 0#32, 0#32⟩) →
    ∃ t, exec (.frame w) s = .next t ∧ t.out = s.out ++ [w] ∧ t.isat = s.isat)

/-- R264: with the reset coefficients every `FRAME` emits zero and is counted, and the input enters the
input history of the highpass stages. -/
def Obligations.FramesBeforeFirstCommit : Prop :=
  ∀ (s : State) (w : Word), s.coefA = .zero →
    ∃ t, exec (.frame w) s = .next t ∧ t.out = s.out ++ [0#32] ∧
      t.frameCnt = s.frameCnt + 1#32 ∧ t.isat = s.isat ∧
      t.hist.hpl.x1.toInt = (leftField w).toInt * 2 ^ 13 ∧ t.hist.hpl.x2 = s.hist.hpl.x1 ∧
      t.hist.hpr.x1.toInt = (rightField w).toInt * 2 ^ 13 ∧ t.hist.hpr.x2 = s.hist.hpr.x1 ∧
      t.hist.hpl.y1 = 0#32 ∧ t.hist.hpr.y1 = 0#32 ∧
      t.hist.lpl = ⟨0#32, s.hist.lpl.x1, 0#32, s.hist.lpl.y1⟩ ∧
      t.hist.lpr = ⟨0#32, s.hist.lpr.x1, 0#32, s.hist.lpr.y1⟩

/-- R26: `FRAMECNT` counts the frames processed since `RESET`, modulo `2^32`, and over any list of
operations without a `RESET` it rises by the frames of the list. -/
def Obligations.FrameCounterCountsFrames : Prop :=
  (∀ (is : List Instr) (s : State), (∀ i ∈ is, i ≠ .reset) →
    ∃ t, execAll (.reset :: is) s = .next t ∧ t.frameCnt = BitVec.ofNat 32 (frameCount is)) ∧
  (∀ (is : List Instr) (s : State), (∀ i ∈ is, i ≠ .reset) →
    ∃ t, execAll is s = .next t ∧ t.frameCnt = s.frameCnt + BitVec.ofNat 32 (frameCount is))

/-- From R68: the words on `OUT` are the results of the `FRAME`s, one each, in order: the word of the
`FRAME` after `pre` stands after the words of the `FRAME`s of `pre`, whatever comes later. -/
def Obligations.OutputsComeInFrameOrder : Prop :=
  ∀ (pre post : List Instr) (w : Word) (s : State), ∃ u v t o,
    execAll pre s = .next u ∧ exec (.frame w) u = .next v ∧
    execAll (pre ++ .frame w :: post) s = .next t ∧ v.out = u.out ++ [o] ∧
    t.out[s.out.length + frameCount pre]? = some o ∧
    t.out.length = s.out.length + frameCount pre + 1 + frameCount post

/-! ## Coefficient and command operations -/

/-- R124: a bus write of `v` to word address `0x00020 + 8s + k` is `WRCOEF s, k, v`, and it writes that
one shadow word and nothing else. -/
def Obligations.WrcoefWritesOneShadowWord : Prop :=
  ∀ (st : Stage) (k : CoefIx) (v : Word) (s : State), ∃ t,
    decode (eventWord 0#2 1#1
      (BitVec.ofNat 17 (0x00020 + 8 * (stageCode st).toNat + (coefIxCode k).toNat)) v)
      = .ok (.wrcoef st k v) ∧
    exec (.wrcoef st k v) s = .next t ∧ t.coefS.get st k = v ∧
    (∀ st' k', (st', k') ≠ (st, k) → t.coefS.get st' k' = s.coefS.get st' k') ∧
    t = { s with coefS := t.coefS }

/-- R125: a bus read of word address `0x00020 + 8s + k` is `RDCOEF s, k`; it returns the shadow word and
changes no state of the block; after a `COMMIT` or `COMMITCLR` the active word is the same until the next
`WRCOEF`. -/
def Obligations.RdcoefReturnsShadowWord : Prop :=
  ∀ (st : Stage) (k : CoefIx) (s : State),
    decode (eventWord 0#2 0#1
      (BitVec.ofNat 17 (0x00020 + 8 * (stageCode st).toNat + (coefIxCode k).toNat)) 0#32)
      = .ok (.rdcoef st k) ∧
    exec (.rdcoef st k) s = .next { s with reads := s.reads ++ [s.coefS.get st k] } ∧
    ∀ (c : Instr) (is : List Instr), c = .commit ∨ c = .commitclr →
      (∀ i ∈ is, ∀ st' k' v, i ≠ .wrcoef st' k' v) →
      ∃ t, execAll (c :: is) s = .next t ∧ t.coefA.get st k = t.coefS.get st k

/-- R126: `0x2000000000001` is `COMMIT`, which copies all twenty words of the shadow bank to the active bank and changes nothing
else. -/
def Obligations.CommitPublishesShadowBank : Prop :=
  decode 0x2000000000001#52 = .ok .commit ∧
  ∀ s : State, ∃ t, exec .commit s = .next t ∧
    (∀ st k, t.coefA.get st k = s.coefS.get st k) ∧ t = { s with coefA := t.coefA }

/-- R127: `0x2000000000002` is `CLRHIST`, which zeroes the sixteen history words and changes nothing else;
a silent frame after it emits silence. -/
def Obligations.ClrhistZeroesHistory : Prop :=
  decode 0x2000000000002#52 = .ok .clrhist ∧
  ∀ s : State,
    exec .clrhist s = .next
      { s with hist := ⟨⟨0, 0, 0, 0⟩, ⟨0, 0, 0, 0⟩, ⟨0, 0, 0, 0⟩, ⟨0, 0, 0, 0⟩⟩ } ∧
    ∃ t, execAll [.clrhist, .frame 0#32] s = .next t ∧ t.out = s.out ++ [0#32]

/-- R128: `0x2000000000003` is `COMMITCLR`, a `COMMIT` and a `CLRHIST` in one event; a silent frame after
it emits silence whatever came before. -/
def Obligations.CommitclrIsBothAtOnce : Prop :=
  decode 0x2000000000003#52 = .ok .commitclr ∧
  ∀ s : State,
    exec .commitclr s = .next
      { s with
        coefA := s.coefS
        hist := ⟨⟨0, 0, 0, 0⟩, ⟨0, 0, 0, 0⟩, ⟨0, 0, 0, 0⟩, ⟨0, 0, 0, 0⟩⟩ } ∧
    exec .commitclr s = execAll [.commit, .clrhist] s ∧
    ∃ t, execAll [.commitclr, .frame 0#32] s = .next t ∧ t.out = s.out ++ [0#32]

/-- R129, R132: `0x2000000000000` is `NOP`, a `CTRL` write with `CMD` = `c` in 5 to 15 is `CMDRSVD c`, and
neither changes any state. -/
def Obligations.NopAndReservedCommandsDoNothing : Prop :=
  decode 0x2000000000000#52 = .ok .nop ∧
  (∀ c : BitVec 4, 5 ≤ c.toNat → decode (eventWord 0#2 1#1 0#17 (0#28 ++ c)) = .ok (.cmdrsvd c)) ∧
  ∀ s : State, exec .nop s = .next s ∧ ∀ c : BitVec 4, exec (.cmdrsvd c) s = .next s

/-- R130: `0x0000100000000` is `RDSTATUS`, which returns `ISAT * 4 + RPHASE` and clears nothing. -/
def Obligations.StatusReadsFlagAndPhase : Prop :=
  decode 0x0000100000000#52 = .ok .rdstatus ∧
  ∀ s : State, ∃ v : Word,
    v.toNat = (if s.isat then 4 else 0) +
      (match s.rphase with | .idle => 0 | .armed => 1 | .sampling => 2) ∧
    exec .rdstatus s = .next { s with reads := s.reads ++ [v] }

/-- R131: `0x0000200000000` is `RDFRAMECNT`, which returns the counter; two reads with `n` frames between
them, whatever else but `RESET` comes between, differ by `n` modulo `2^32`. -/
def Obligations.FrameCountReadsDifferByFrames : Prop :=
  decode 0x0000200000000#52 = .ok .rdframecnt ∧
  (∀ s : State, exec .rdframecnt s = .next { s with reads := s.reads ++ [s.frameCnt] }) ∧
  (∀ (s : State) (is : List Instr), (∀ i ∈ is, i ≠ .reset) → ∃ t mid,
    execAll (.rdframecnt :: is ++ [.rdframecnt]) s = .next t ∧
    t.reads = s.reads ++ [s.frameCnt] ++ mid ++ [s.frameCnt + BitVec.ofNat 32 (frameCount is)])

/-- R67: a coefficient write is seen by no `FRAME` before a commit; a `COMMIT` or `COMMITCLR` copies the
shadow bank to the active bank, and every `FRAME` after it, until the next commit or `RESET`, computes with
that set. The history a `COMMITCLR` leaves is zero. -/
def Obligations.CoefficientWritesWaitForCommit : Prop :=
  (∀ (is : List Instr) (s : State),
    (∀ i ∈ is, i ≠ .commit ∧ i ≠ .commitclr ∧ i ≠ .reset) →
    ∃ t, execAll is s = .next t ∧ t.coefA = s.coefA) ∧
  (∀ (st : Stage) (k : CoefIx) (v w : Word) (s : State), ∃ t u,
    execAll [.wrcoef st k v, .frame w] s = .next t ∧ exec (.frame w) s = .next u ∧
    t.out = u.out ∧ t.hist = u.hist ∧ t.isat = u.isat) ∧
  (∀ (w : Word) (s : State), ∃ t u,
    execAll [.commit, .frame w] s = .next t ∧
    exec (.frame w) { s with coefA := s.coefS } = .next u ∧ t = u) ∧
  (∀ (w : Word) (s : State), ∃ t u,
    execAll [.commitclr, .frame w] s = .next t ∧
    exec (.frame w) { s with coefA := s.coefS, hist := .zero } = .next u ∧ t = u) ∧
  (∀ (c : Instr) (is : List Instr) (s : State), c = .commit ∨ c = .commitclr →
    (∀ i ∈ is, i ≠ .commit ∧ i ≠ .commitclr ∧ i ≠ .reset) →
    ∃ t, execAll (c :: is) s = .next t ∧ t.coefA = s.coefS)

/-- From R198, R102: the twenty `WRCOEF` of a `LOADSET` may come in any order with `FRAME`s between them;
after the commit the active bank holds `hp` in both highpass and `lp` in both lowpass stages. `COMMIT`
keeps the history, `COMMITCLR` zeroes it. -/
def Obligations.AnyLoadOrderGivesSameSet : Prop :=
  ∀ (hp lp : CoefSet) (is : List Instr) (s : State),
    (is.filter fun i => !i.isFrame).Perm (loadSet hp lp) →
    (∃ t u, execAll is s = .next t ∧ execAll (is ++ [.commit]) s = .next u ∧
      u.coefA = ⟨hp, lp, hp, lp⟩ ∧ u.coefS = ⟨hp, lp, hp, lp⟩ ∧ u.hist = t.hist) ∧
    (∃ u, execAll (is ++ [.commitclr]) s = .next u ∧
      u.coefA = ⟨hp, lp, hp, lp⟩ ∧ u.hist = .zero)

/-! ## Reserved accesses, reads, idempotency -/

/-- R97: which addresses are reserved for reading and for writing, and that such an access returns 0 and
changes nothing. -/
def Obligations.ReservedAccessesAreInert : Prop :=
  (∀ a : Addr, readReserved a = true ↔
    a.toNat = 0 ∨ (4 ≤ a.toNat ∧ a.toNat ≤ 0x1F) ∨
    (0x20 ≤ a.toNat ∧ a.toNat ≤ 0x3F ∧ 5 ≤ a.toNat % 8) ∨ (0x40 ≤ a.toNat ∧ a.toNat ≤ 0xFFFF)) ∧
  (∀ a : Addr, writeReserved a = true ↔
    (1 ≤ a.toNat ∧ a.toNat ≤ 0x1F) ∨
    (0x20 ≤ a.toNat ∧ a.toNat ≤ 0x3F ∧ 5 ≤ a.toNat % 8) ∨ 0x40 ≤ a.toNat) ∧
  (∀ (a : Addr) (s : State), readReserved a = true →
    decode (encodeRead a) = .ok (.rdrsvd a) ∧
    exec (.rdrsvd a) s = .next { s with reads := s.reads ++ [0#32] }) ∧
  (∀ (a : Addr) (v : Word) (s : State), writeReserved a = true →
    decode (eventWord 0#2 1#1 a v) = .ok (.wrrsvd a v) ∧ exec (.wrrsvd a v) s = .next s)

/-- From R58: no bus read changes the state of the block (the log of reads takes one word, and the
model's own counter of free values may advance, R168), a repeated read with no event between returns the
same value (of a slot: one written since the last `RESET`), and `WRCOEF`, `COMMIT`, `CLRHIST`, `COMMITCLR`
and `ARM` are idempotent. -/
def Obligations.ReadsAndRepeatsAreHarmless : Prop :=
  (∀ (i : Instr) (s : State),
    (i = .rdstatus ∨ i = .rdframecnt ∨ i = .rdcursor ∨ (∃ st k, i = .rdcoef st k) ∨
      (∃ off, i = .rdslot off) ∨ ∃ a, i = .rdrsvd a) →
    ∃ t v, exec i s = .next t ∧ t = { s with reads := s.reads ++ [v], freeCtr := t.freeCtr }) ∧
  (∀ (i : Instr) (s : State),
    (i = .rdstatus ∨ i = .rdframecnt ∨ i = .rdcursor ∨ (∃ st k, i = .rdcoef st k) ∨
      (∃ off, i = .rdslot off ∧ (Memory.read s.ring (readSlot s.ringAw off)).isSome) ∨
      ∃ a, i = .rdrsvd a) →
    ∃ t v, execAll [i, i] s = .next t ∧ t = { s with reads := s.reads ++ [v, v] }) ∧
  (∀ (i : Instr) (s : State),
    ((∃ st k v, i = .wrcoef st k v) ∨ i = .commit ∨ i = .clrhist ∨ i = .commitclr ∨ i = .arm) →
    ∃ t, exec i s = .next t ∧ execAll [i, i] s = .next t)

/-! ## Ring -/

/-- R161: `0x2000000000004` is `ARM`, which moves `Idle` to `Armed`, changes nothing in any other phase and
touches nothing else. -/
def Obligations.ArmMovesIdleToArmed : Prop :=
  decode 0x2000000000004#52 = .ok .arm ∧
  (∀ s : State, s.rphase = .idle → exec .arm s = .next { s with rphase := .armed }) ∧
  (∀ s : State, s.rphase ≠ .idle → exec .arm s = .next s)

/-- R162: an event word with `PORT` = 2 and `d` in `DATA[15:0]` is `TICK d`; a `TICK` in `Idle` changes nothing; else it stores its code in slot `CURSOR & (CAP - 1)`, which
is `CURSOR mod CAP`, adds one to the cursor, enters `Sampling`, and leaves every other slot and all other
state alone. -/
def Obligations.TickStoresAndAdvances : Prop :=
  (∀ d : Code, decode (eventWord 2#2 0#1 0#17 (0#16 ++ d)) = .ok (.tick d)) ∧
  (∀ (s : State) (d : Code), s.rphase = .idle → exec (.tick d) s = .next s) ∧
  (∀ (s : State) (d : Code), s.rphase ≠ .idle → ∃ t, exec (.tick d) s = .next t ∧
    writeSlot s.ringAw s.cursor = s.cursor.toNat % s.cap ∧
    Memory.read t.ring (writeSlot s.ringAw s.cursor) = some d ∧
    (∀ n, n ≠ writeSlot s.ringAw s.cursor →
      Memory.read t.ring n = Memory.read s.ring n ∧ Memory.code t.ring n = Memory.code s.ring n) ∧
    t.cursor.toNat = (s.cursor.toNat + 1) % 2 ^ 32 ∧ t.rphase = .sampling ∧
    t = { s with ring := t.ring, cursor := t.cursor, rphase := t.rphase })

/-- R163: `0x0000300000000` is `RDCURSOR`, which returns all 32 bits of the cursor and changes no state of
the block; the value is the number of samples written since `RESET`, modulo `2^32`. -/
def Obligations.CursorReadsWhole : Prop :=
  decode 0x0000300000000#52 = .ok .rdcursor ∧
  (∀ s : State, exec .rdcursor s = .next { s with reads := s.reads ++ [s.cursor] }) ∧
  (∀ (s : State) (is : List Instr), (∀ i ∈ is, i ≠ .reset) → ∃ t u,
    execAll (.reset :: is) s = .next t ∧ exec .rdcursor t = .next u ∧
    u.reads = t.reads ++ [BitVec.ofNat 32 (writtenCodes false is).length])

/-- R164: a bus read of word address `0x10000 + i` is `RDSLOT i`; of a slot written since the last `RESET`
it returns slot `i mod CAP` zero-extended, of another some 16-bit value, and it changes no state of the
block; offsets `i` and `i + CAP` read the same slot. -/
def Obligations.SlotReadsZeroExtended : Prop :=
  (∀ i : Code, decode (eventWord 0#2 0#1 (BitVec.ofNat 17 (0x10000 + i.toNat)) 0#32) = .ok (.rdslot i)) ∧
  (∀ (s : State) (i : Code), Memory.read s.ring (i.toNat % s.cap) = none →
    ∃ t, ∃ v : Word, v.toNat < 2 ^ 16 ∧ exec (.rdslot i) s = .next t ∧
      t = { s with reads := s.reads ++ [v], freeCtr := t.freeCtr }) ∧
  (∀ (s : State) (i c : Code), Memory.read s.ring (i.toNat % s.cap) = some c →
    ∃ v : Word, v.toNat = c.toNat ∧ exec (.rdslot i) s = .next { s with reads := s.reads ++ [v] }) ∧
  (∀ (s : State) (i j : Code), i.toNat % s.cap = j.toNat % s.cap →
    exec (.rdslot i) s = exec (.rdslot j) s) ∧
  (∀ (s : State) (i : Code),
    (i + BitVec.ofNat 16 s.cap).toNat % s.cap = i.toNat % s.cap)

/-- From R168, R262: a `RDSLOT` of a slot not written since the last `RESET` completes with some 16-bit
value, bits 31:16 zero, and changes no state of the block; after a `RESET` every slot is such a slot,
though no code is overwritten. That the free value is drawn through `freeCtr`, which `RESET` leaves alone,
is the model's choice (notes/assumptions/3.md), and so is that `RESET` leaves the parameter `ringAw`
(notes/assumptions/2.md) and `pending`, `out` and `reads` (notes/assumptions/5.md) as they are. -/
def Obligations.UnwrittenSlotsReadSomeCode : Prop :=
  (∀ (s : State) (i : Code), Memory.read s.ring (i.toNat % s.cap) = none →
    ∃ v : Word, v.toNat < 2 ^ 16 ∧
      exec (.rdslot i) s = .next { s with reads := s.reads ++ [v], freeCtr := s.freeCtr + 1 }) ∧
  (∀ s : State, ∃ t, exec .reset s = .next t ∧
    (∀ n, Memory.read t.ring n = none ∧ Memory.code t.ring n = Memory.code s.ring n) ∧
    t.freeCtr = s.freeCtr ∧ t.ringAw = s.ringAw ∧ t.pending = s.pending ∧ t.out = s.out ∧
    t.reads = s.reads)

/-- R165: the slot sequence is unbroken across the cursor's wrap: the write at `0xFFFFFFFF` goes to slot
`CAP - 1` and leaves the cursor 0, the next goes to slot 0; and a logical index computed in 32-bit
unsigned arithmetic names the right slot. -/
def Obligations.CursorWrapsThroughSlotZero : Prop :=
  (∀ (aw : RingAw) (c : Word), writeSlot aw (c + 1#32) = (writeSlot aw c + 1) % aw.cap) ∧
  (∀ (s : State) (d e : Code), s.rphase ≠ .idle → s.cursor = 0xFFFFFFFF#32 →
    ∃ t u, exec (.tick d) s = .next t ∧ exec (.tick e) t = .next u ∧
      t.cursor = 0#32 ∧ Memory.read t.ring (s.cap - 1) = some d ∧
      u.cursor = 1#32 ∧ Memory.read u.ring 0 = some e) ∧
  (∀ (aw : RingAw) (c k : Word), ∃ q : Int,
    ((c - k).toNat % aw.cap : Int) = (c.toNat : Int) - (k.toNat : Int) + q * aw.cap)

/-- R166: after `RESET` and any operations without another `RESET` that write `M < 2^32` samples
`d(0) … d(M-1)`: `CURSOR = M`, slot `n mod CAP` holds `d(n)` for each of the last `CAP` indices, with
`M < CAP` the other slots have not been written, and with `M >= CAP` the oldest sample held is at slot
`CURSOR & (CAP - 1)`. -/
def Obligations.RingHoldsLastSamples : Prop :=
  ∀ (s : State) (is : List Instr) (ds : List Code), (∀ i ∈ is, i ≠ .reset) →
    ds = writtenCodes false is → ds.length < 2 ^ 32 →
    ∃ t, execAll (.reset :: is) s = .next t ∧
      t.cursor.toNat = ds.length ∧
      (∀ n, ds.length ≤ n + s.cap → n < ds.length → Memory.read t.ring (n % s.cap) = ds[n]?) ∧
      (∀ n, ds.length ≤ n → n < s.cap → Memory.read t.ring n = none) ∧
      (s.cap ≤ ds.length → Memory.read t.ring (writeSlot t.ringAw t.cursor) = ds[ds.length - s.cap]?)

/-- R62: the `TICK` after `k` writing `TICK`s since `RESET`, in an enabled ring, writes slot `k mod CAP` and
leaves the cursor at `(k + 1) mod 2^32`; two cursor reads, whatever but `RESET` comes between, differ by the
number of writing `TICK`s between them, modulo `2^32`. -/
def Obligations.CursorCountsWritingTicks : Prop :=
  (∀ (is : List Instr) (s : State) (d : Code), (∀ i ∈ is, i ≠ .reset) → .arm ∈ is →
    ∃ t u, execAll (.reset :: is) s = .next t ∧ exec (.tick d) t = .next u ∧
      Memory.read u.ring ((writtenCodes false is).length % s.cap) = some d ∧
      (∀ n, n ≠ (writtenCodes false is).length % s.cap → Memory.read u.ring n = Memory.read t.ring n) ∧
      u.cursor.toNat = ((writtenCodes false is).length + 1) % 2 ^ 32) ∧
  (∀ (is : List Instr) (s : State), (∀ i ∈ is, i ≠ .reset) →
    ∃ t mid, execAll (.rdcursor :: is ++ [.rdcursor]) s = .next t ∧
      t.reads = s.reads ++ [s.cursor] ++ mid ++
        [s.cursor + BitVec.ofNat 32 (writtenCodes (decide (s.rphase ≠ .idle)) is).length])

/-- From R64, R65, R202: a window of `K` entries named by the cursor value read, `1 <= K <= CAP`, all written:
if at most `CAP - K` ticks fall before the slot is read, the `RDSLOT` of entry `j` still returns the
sample it held at the `RDCURSOR`, whatever other operations but `RESET` come between. With `K = CAP` one
tick already tears the window: its oldest entry reads as the tick's new sample. -/
def Obligations.WindowIsWholeWithinSlack : Prop :=
  (∀ (s : State) (is : List Instr) (k j : Nat) (d : Code),
    1 ≤ k → k ≤ s.cap → j < k → (∀ i ∈ is, i ≠ .reset) → tickCount is ≤ s.cap - k →
    Memory.read s.ring (readSlot s.ringAw (windowOffset s.cursor k j)) = some d →
    ∃ t u, execAll is s = .next t ∧ exec (.rdslot (windowOffset s.cursor k j)) t = .next u ∧
      u.reads = t.reads ++ [zextCode d]) ∧
  (∀ (s : State) (d : Code), s.rphase ≠ .idle →
    ∃ t u, exec (.tick d) s = .next t ∧
      exec (.rdslot (windowOffset s.cursor s.cap 0)) t = .next u ∧
      u.reads = t.reads ++ [zextCode d])

/-- From R61, R267: in a state that keeps the invariant, every entry of a window no longer than the ring
and no longer than the cursor value has been written since the last `RESET`. -/
def Obligations.WindowBelowCursorIsWritten : Prop :=
  ∀ (s : State) (k j : Nat), s.Inv → k ≤ s.cap → k ≤ s.cursor.toNat → j < k →
    (Memory.read s.ring (readSlot s.ringAw (windowOffset s.cursor k j))).isSome

/-- R27: the three phases read as 0, 1 and 2, and 3 never occurs; the phase only moves forward, `Idle` to `Armed` by `ARM` and `Armed` to `Sampling` by `TICK`;
nothing but `RESET` returns it to `Idle`. -/
def Obligations.PhaseOnlyMovesForward : Prop :=
  (phaseCode .idle = 0#2 ∧ phaseCode .armed = 1#2 ∧ phaseCode .sampling = 2#2 ∧
    ∀ p : Phase, phaseCode p ≠ 3#2) ∧
  ∀ (i : Instr) (s : State), ∃ t, exec i s = .next t ∧
    (i = .reset → t.rphase = .idle) ∧
    (i ≠ .reset →
      (t.rphase ≠ s.rphase →
        (s.rphase = .idle ∧ i = .arm ∧ t.rphase = .armed) ∨
        (s.rphase = .armed ∧ (∃ d, i = .tick d) ∧ t.rphase = .sampling)) ∧
      (s.rphase = .sampling → t.rphase = .sampling))

/-! ## The two datapaths together -/

/-- R69: no filter operation reads or writes ring state, and no ring operation reads or writes filter
state. -/
def Obligations.DatapathsAreIndependent : Prop :=
  (∀ (i : Instr) (s : State), i.isFilter = true →
    ∃ t, exec i s = .next t ∧ s.sameRing t ∧ t.freeCtr = s.freeCtr) ∧
  (∀ (i : Instr) (s : State), i.isRing = true → ∃ t, exec i s = .next t ∧ s.sameFilter t ∧
    t.out = s.out) ∧
  (∀ (i : Instr) (s s' : State), i.isFilter = true → s.sameFilter s' →
    s.out = s'.out → s.reads = s'.reads →
    ∃ t t', exec i s = .next t ∧ exec i s' = .next t' ∧ t.sameFilter t' ∧ t.out = t'.out ∧
      t.reads = t'.reads) ∧
  (∀ (i : Instr) (s s' : State), i.isRing = true → s.sameRing s' → s.freeCtr = s'.freeCtr →
    s.reads = s'.reads →
    ∃ t t', exec i s = .next t ∧ exec i s' = .next t' ∧ t.sameRing t' ∧ t.reads = t'.reads)

/-- From R69: any interleaving gives the filter outputs and the ring contents of the two sub-traces run
apart. -/
def Obligations.InterleavingIsIrrelevant : Prop :=
  ∀ (is : List Instr) (s : State), (∀ i ∈ is, i ≠ .reset) →
    ∃ t tf tr, execAll is s = .next t ∧
      execAll (is.filter Instr.isFilter) s = .next tf ∧
      execAll (is.filter Instr.isRing) s = .next tr ∧
      tf.sameFilter t ∧ t.out = tf.out ∧ tr.sameRing t

/-- From R69, R239: an operation that changes the filter and one that changes the ring may be performed in
either order. -/
def Obligations.FilterAndRingEventsCommute : Prop :=
  ∀ (i j : Instr) (s : State),
    ((∃ w, i = .frame w) ∨ (∃ st k v, i = .wrcoef st k v) ∨ i = .commit ∨ i = .clrhist ∨
      i = .commitclr) →
    ((∃ d, j = .tick d) ∨ j = .arm) →
    ∃ t, execAll [i, j] s = .next t ∧ execAll [j, i] s = .next t

/-- R274: a written register is seen by the next event. -/
def Obligations.WritesAreSeenByNextEvent : Prop :=
  (∀ (st : Stage) (k : CoefIx) (v : Word) (s : State), ∃ t,
    execAll [.wrcoef st k v, .rdcoef st k] s = .next t ∧ t.reads = s.reads ++ [v]) ∧
  (∀ (w : Word) (s : State), ∃ t u,
    execAll [.commit, .frame w] s = .next t ∧
    exec (.frame w) { s with coefA := s.coefS } = .next u ∧ t.out = u.out ∧ t.hist = u.hist) ∧
  (∀ (d : Code) (s : State), s.rphase ≠ .idle → ∃ t,
    execAll [.tick d, .rdslot (s.cursor.setWidth 16)] s = .next t ∧
    t.reads = s.reads ++ [zextCode d])

/-! ## Reset and invariants -/

/-- R260: `0xC000000000000` is `RESET`; on every state both banks, the history, `ISAT`, `FRAMECNT`, `RPHASE`
and `CURSOR` take their reset values, and no code of the ring is changed. Every other operation leaves a set
`ISAT` set and an enabled ring enabled, and leaves `CURSOR` and `FRAMECNT` or adds one to them: only
`RESET` sets them back. -/
def Obligations.ResetEstablishesResetValues : Prop :=
  decode 0xC000000000000#52 = .ok .reset ∧
  (∀ s : State, ∃ t, exec .reset s = .next t ∧
    (∀ st k, t.coefS.get st k = 0#32 ∧ t.coefA.get st k = 0#32) ∧
    (∀ st, t.hist.stage st = ⟨0#32, 0#32, 0#32, 0#32⟩) ∧
    t.isat = false ∧ t.frameCnt = 0#32 ∧ t.rphase = .idle ∧ t.cursor = 0#32 ∧
    (∀ n, Memory.code t.ring n = Memory.code s.ring n)) ∧
  (∀ (i : Instr) (s : State), i ≠ .reset → ∃ t, exec i s = .next t ∧
    (s.isat = true → t.isat = true) ∧ (s.rphase ≠ .idle → t.rphase ≠ .idle) ∧
    (t.cursor = s.cursor ∨ t.cursor = s.cursor + 1#32) ∧
    (t.frameCnt = s.frameCnt ∨ t.frameCnt = s.frameCnt + 1#32))

/-- R33: the state after reset. -/
def Obligations.ResetStateHoldsResetValues : Prop :=
  (∀ st k, State.reset.coefS.get st k = 0#32 ∧ State.reset.coefA.get st k = 0#32) ∧
  (∀ st, State.reset.hist.stage st = ⟨0#32, 0#32, 0#32, 0#32⟩) ∧
  State.reset.isat = false ∧ State.reset.frameCnt = 0#32 ∧ State.reset.rphase = .idle ∧
  State.reset.cursor = 0#32 ∧ (∀ n, Memory.read State.reset.ring n = none)

/-- The invariant holds after reset, for every `RING_AW`. -/
def Obligations.ResetMeetsInvariant : Prop :=
  State.reset.Inv ∧ ∀ aw : RingAw, (State.resetOf aw).Inv

/-- Every step keeps the invariant: the ring memory stays canonical and inside the ring, a lowpass input
history stays the highpass output history (R24), every slot below the cursor has been written (R61), and
before `Sampling` nothing has been written (R160). -/
def Obligations.StepKeepsInvariant : Prop :=
  ∀ s t : State, s.Inv → step s = .next t → t.Inv

/-- R24: in every state reachable from reset, the input history of a lowpass stage equals the output
history of the highpass stage before it. -/
def Obligations.CascadeSharesHistory : Prop :=
  ∀ (aw : RingAw) (is : List Instr), ∃ t, execAll is (State.resetOf aw) = .next t ∧
    t.hist.lpl.x1 = t.hist.hpl.y1 ∧ t.hist.lpl.x2 = t.hist.hpl.y2 ∧
    t.hist.lpr.x1 = t.hist.hpr.y1 ∧ t.hist.lpr.x2 = t.hist.hpr.y2

/-- A run is refused only by a word that spells no event: a state whose trace spells events steps to such
a state again (R89, R230). -/
def Obligations.SpelledTraceIsNeverRefused : Prop :=
  ∀ s : State, s.traceSpellsEvents → ∃ t, step s = .next t ∧ t.traceSpellsEvents

/-! ## Signals and the host's side -/

/-- From R71, R239: a cycle in reset is one `RESET` and nothing else; any other cycle is one event for
each of the bus, `IN` and the timer that presents one, every such word spells an event, and every order is
allowed. That `in_ready` also depends on what the spec leaves open in time is the model's description
(notes/assumptions/12.md). -/
def Obligations.CycleEventsSpellEvents : Prop :=
  (∀ (p : Pins) (c : Cycle) (t : Timing) (es : List EventWord), c.rst = true → p.mayPerform c t es →
    es = [encode .reset]) ∧
  (∀ (p : Pins) (c : Cycle) (t : Timing) (es : List EventWord), c.rst = false → p.mayPerform c t es →
    es.length = (if c.busValid then 1 else 0) + (if c.inValid && p.inReady c t then 1 else 0) +
      (if c.tick then 1 else 0) ∧
    (∀ e ∈ es, ∃ i, decode e = .ok i) ∧
    (c.busValid = true → (if c.busWe then eventWord 0#2 1#1 c.busAddr c.busWdata
      else eventWord 0#2 0#1 c.busAddr 0#32) ∈ es) ∧
    (c.inValid = true → p.inReady c t = true → ∃ e ∈ es, decode e = .ok (.frame c.inData)) ∧
    (c.tick = true → ∃ e ∈ es, decode e = .ok (.tick c.adc)))

/-- From R135, R133: quantisation moves a real coefficient inside the format by at most half a unit of
`2^-30`. -/
def Obligations.QuantiserIsNearest : Prop :=
  ∀ c : ℝ, -2 ≤ c → c ≤ 2 - 1 / 2 ^ 30 → 2 * |((q30 c).toInt : ℝ) - c * 2 ^ 30| ≤ 1

/-- From R134, R136: `alpha` and the ranges of the constructed coefficients, in real numbers, for every
cutoff strictly between 0 and half the sample rate. R136's remark that `q30` never saturates is not part of
it (notes/assumptions/15.md). -/
def Obligations.ConstructedCoefficientsFit : Prop :=
  ∀ f fs : ℝ, 0 < f → f < fs / 2 →
    (alphaAt f fs = Real.sin (2 * Real.pi * f / fs) / √2 ∧ 0 < alphaAt f fs ∧ alphaAt f fs ≤ 1 / √2 ∧
      -1 < Real.cos (2 * Real.pi * f / fs) ∧ Real.cos (2 * Real.pi * f / fs) < 1) ∧
    (0 < (highpassAt f fs).b0 ∧ (highpassAt f fs).b0 < 1 ∧
      (highpassAt f fs).b2 = (highpassAt f fs).b0 ∧
      -2 < (highpassAt f fs).b1 ∧ (highpassAt f fs).b1 < 0) ∧
    (0 < (lowpassAt f fs).b0 ∧ (lowpassAt f fs).b0 < 1 ∧
      (lowpassAt f fs).b2 = (lowpassAt f fs).b0 ∧
      0 < (lowpassAt f fs).b1 ∧ (lowpassAt f fs).b1 < 2) ∧
    (highpassAt f fs).a1 = (lowpassAt f fs).a1 ∧ (highpassAt f fs).a2 = (lowpassAt f fs).a2 ∧
    -2 < (lowpassAt f fs).a1 ∧ (lowpassAt f fs).a1 < 2 ∧
    1715 / 10000 ≤ (lowpassAt f fs).a2 ∧ (lowpassAt f fs).a2 < 1

/-! ## The pins and a whole window -/

/-- From R68, R71, R260: every cycle completes, in every order of its events. While `rst = 1` `in_ready` and
`out_valid` are 0, and the results that have not come to `OUT` are lost; that the words already on `OUT`,
and the reads not yet answered, may outlast the cycle or not is the model's choice where the spec is silent
(notes/assumptions/12.md). Outside reset the words kept and the word taken are, in this order, the word
handed over and the words kept after, so none is dropped, repeated or reordered; a cycle with
`out_valid = out_ready = 1` hands one over and no other does. While the consumer of `OUT` is not ready the
block takes words only up to what it is able to keep, then holds `in_ready` at 0, and never keeps more. A
read performed in a cycle that shows read data, with none unanswered before, shows its own. What the block
is able to keep (`depth`) and what is open in time (`Timing`) are the model's description
(notes/assumptions/12.md). -/
def Obligations.PinsDropNoWordOutsideReset : Prop :=
  ∀ (p : Pins) (c : Cycle) (t : Timing) (es : List EventWord), p.mayPerform c t es →
    ∃ o ws, p.clock c t es = some o ∧ o.next.depth = p.depth ∧
      o.next.block.out = p.block.out ++ ws ∧
      ws.length = (if c.inValid && o.inReady then 1 else 0) ∧
      (c.rst = true → o.inReady = false ∧ o.outValid = false ∧ o.next.flight = [] ∧
        (o.next.waiting = p.waiting ∨ o.next.waiting = [])) ∧
      (o.outValid = true ↔ ∃ w, o.outData = some w) ∧
      (c.rst = false →
        p.waiting ++ p.flight ++ ws =
          (if o.outValid && c.outReady then o.outData.toList else []) ++ o.next.waiting ++
            o.next.flight) ∧
      (c.outReady = false → p.depth ≤ p.held → o.inReady = false) ∧
      (p.held ≤ p.depth → o.next.held ≤ p.depth) ∧
      (c.rst = false → c.busValid = true → c.busWe = false → t.responds = true →
        p.unanswered = [] →
        ∃ v, o.next.block.reads = p.block.reads ++ [v] ∧ o.busRdata = some v)

/-- From R65, R102, R202: a whole `WINDOW K` run by a host that takes `c` from its `RDCURSOR`, with other
agents' operations between its events. With `1 <= K <= CAP`, all `K` entries written before the `RDCURSOR`
and at most `CAP - K` ticks between it and the last `RDSLOT`, it returns the cursor and then exactly the
`K` samples the slots held at the `RDCURSOR`, oldest first. -/
def Obligations.WindowReturnsSamplesAtCursorRead : Prop :=
  ∀ (s : State) (gap : List Instr) (gaps : List (List Instr)) (ds : List Code),
    1 ≤ ds.length → ds.length ≤ s.cap → gaps.length = ds.length →
    (∀ i ∈ gaps.flatten, i ≠ .reset) → tickCount gaps.flatten ≤ s.cap - ds.length →
    ∃ u, execAll gap s = .next u ∧
      ((∀ j d, ds[j]? = some d →
          Memory.read u.ring (readSlot u.ringAw (windowOffset u.cursor ds.length j)) = some d) →
        ∃ t, windowRun ds.length (gap :: gaps) s = some (t, u.cursor :: ds.map zextCode))
end

