-- ==== Sys2Proof/Laws/Arith.lean ====
section
/-! SUPPORT. What the arithmetic primitives and the operand conversions do, once each (spec/00_scope.md
R11; spec/30_encoding.md R82, R87, R88). -/

namespace Sys2Proof.Machine

/-- `sat` stays in the signed range. -/
theorem sat_range (n : Nat) (v : Int) : -(2 ^ (n - 1)) ≤ sat n v ∧ sat n v ≤ 2 ^ (n - 1) - 1 := by
  have h : (0 : Int) < 2 ^ (n - 1) := by positivity
  unfold sat
  split
  · omega
  · split <;> omega

/-- `sat` leaves a value of the range alone. -/
theorem sat_of_mem {n : Nat} {v : Int} (hl : -(2 ^ (n - 1)) ≤ v) (hu : v ≤ 2 ^ (n - 1) - 1) :
    sat n v = v := by
  unfold sat
  rw [if_neg (by omega), if_neg (by omega)]

/-- `sat` changes a value exactly when it lies outside the range. -/
theorem sat_ne_iff (n : Nat) (v : Int) :
    sat n v ≠ v ↔ v < -(2 ^ (n - 1)) ∨ 2 ^ (n - 1) - 1 < v := by
  constructor
  · intro h
    by_contra hc
    exact h (sat_of_mem (by omega) (by omega))
  · intro h he
    have := sat_range n v
    omega

/-- `rhu` is the floor of `(v + 2^(s-1)) / 2^s`, as two inequalities. -/
theorem rhu_bounds (v : Int) (s : Nat) :
    2 ^ s * rhu v s ≤ v + 2 ^ (s - 1) ∧ v + 2 ^ (s - 1) < 2 ^ s * rhu v s + 2 ^ s := by
  have h : (0 : Int) < 2 ^ s := by positivity
  unfold rhu
  refine ⟨Int.mul_ediv_self_le h.ne', ?_⟩
  have := Int.lt_mul_ediv_self_add (x := v + 2 ^ (s - 1)) h
  omega

/-- The two inequalities determine the value. -/
theorem rhu_unique {v r : Int} {s : Nat} (hl : 2 ^ s * r ≤ v + 2 ^ (s - 1))
    (hu : v + 2 ^ (s - 1) < 2 ^ s * r + 2 ^ s) : rhu v s = r := by
  have h : (0 : Int) < 2 ^ s := by positivity
  obtain ⟨hl', hu'⟩ := rhu_bounds v s
  have h1 : 2 ^ s * rhu v s < 2 ^ s * (r + 1) := by rw [mul_add, mul_one]; omega
  have h2 : 2 ^ s * r < 2 ^ s * (rhu v s + 1) := by rw [mul_add, mul_one]; omega
  have h3 := lt_of_mul_lt_mul_left h1 h.le
  have h4 := lt_of_mul_lt_mul_left h2 h.le
  omega

/-- A 32-bit word holds every integer of its signed range. -/
theorem toInt_trunc32 {v : Int} (hl : -(2 ^ 31) ≤ v) (hu : v ≤ 2 ^ 31 - 1) :
    (trunc 32 v).toInt = v := by
  unfold trunc
  rw [BitVec.toInt_ofInt]
  exact Int.bmod_eq_of_le (by omega) (by omega)

/-- A 16-bit word holds every integer of its signed range. -/
theorem toInt_trunc16 {v : Int} (hl : -(2 ^ 15) ≤ v) (hu : v ≤ 2 ^ 15 - 1) :
    (trunc 16 v).toInt = v := by
  unfold trunc
  rw [BitVec.toInt_ofInt]
  exact Int.bmod_eq_of_le (by omega) (by omega)

/-- A saturated value survives being put in a word. -/
theorem toInt_trunc32_sat (v : Int) : (trunc 32 (sat 32 v)).toInt = sat 32 v := by
  have h := sat_range 32 v
  exact toInt_trunc32 (by simpa using h.1) (by simpa using h.2)

/-- Taking the signed value of a word and truncating it again gives the word. -/
@[simp] theorem trunc_toInt (n : Nat) (w : BitVec n) : trunc n w.toInt = w := BitVec.ofInt_toInt

/-- A sample as an integer is in the signed 16-bit range. -/
theorem code_toInt_range (c : Code) : -(2 ^ 15) ≤ c.toInt ∧ c.toInt ≤ 2 ^ 15 - 1 := by
  have h1 := BitVec.le_toInt c
  have h2 := BitVec.toInt_lt (x := c)
  constructor <;> norm_num at * <;> omega

/-- A word as an integer is in the signed 32-bit range. -/
theorem word_toInt_range (w : Word) : -(2 ^ 31) ≤ w.toInt ∧ w.toInt ≤ 2 ^ 31 - 1 := by
  have h1 := BitVec.le_toInt w
  have h2 := BitVec.toInt_lt (x := w)
  constructor <;> norm_num at * <;> omega

/-- The left field of a packed frame word. -/
@[simp] theorem leftField_pack (l r : Int) : leftField (pack l r) = trunc 16 l :=
  BitVec.extractLsb'_append_eq_right

/-- The right field of a packed frame word. -/
@[simp] theorem rightField_pack (l r : Int) : rightField (pack l r) = trunc 16 r :=
  BitVec.extractLsb'_append_eq_left

/-- A word is its two fields. -/
theorem fields_append (w : Word) : rightField w ++ leftField w = w := by
  unfold leftField rightField
  ext i hi
  simp only [BitVec.getElem_append, BitVec.getElem_extractLsb']
  split
  · simp [BitVec.getLsbD_eq_getElem hi]
  · rw [BitVec.getLsbD_eq_getElem (by omega)]
    congr 1
    omega

/-- The input conversion fits a signal word: `to_sig(s)` lies in `-2^28 .. 2^28 - 2^13` (R87). -/
theorem toInt_trunc32_toSig (c : Code) : (trunc 32 (toSig c.toInt)).toInt = c.toInt * 2 ^ 13 := by
  have h := code_toInt_range c
  have e : toSig c.toInt = c.toInt * 2 ^ 13 := rfl
  rw [e]
  exact toInt_trunc32 (by omega) (by omega)

/-- The clamp's result is a 16-bit sample (R88). -/
theorem toS16_range (v : Int) : -(2 ^ 15) ≤ toS16 v ∧ toS16 v ≤ 2 ^ 15 - 1 :=
  sat_range 16 _

end Sys2Proof.Machine
end

