-- ==== Sys2Proof/Laws/Decode.lean ====
section
/-! SUPPORT. The fields of an event word, and what the decoder answers, port by port
(spec/30_encoding.md R89, R90). -/

namespace Sys2Proof

open Machine

section Fields
variable (p : BitVec 2) (w : BitVec 1) (a : Addr) (d : Word)

@[simp] theorem evData_eventWord : evData (eventWord p w a d) = d :=
  BitVec.extractLsb'_append_eq_right

@[simp] theorem evAddr_eventWord : evAddr (eventWord p w a d) = a := by
  unfold evAddr eventWord
  rw [BitVec.extractLsb'_append_eq_of_le (by omega)]
  exact BitVec.extractLsb'_append_eq_right

@[simp] theorem evWe_eventWord : evWe (eventWord p w a d) = w := by
  unfold evWe eventWord
  rw [BitVec.extractLsb'_append_eq_of_le (by omega), BitVec.extractLsb'_append_eq_of_le (by omega)]
  exact BitVec.extractLsb'_append_eq_right

@[simp] theorem evPort_eventWord : evPort (eventWord p w a d) = p := by
  unfold evPort eventWord
  rw [BitVec.extractLsb'_append_eq_of_le (by omega), BitVec.extractLsb'_append_eq_of_le (by omega)]
  exact BitVec.extractLsb'_append_eq_left

end Fields

/-- An event word is its four fields. -/
theorem eventWord_fields (e : EventWord) : eventWord (evPort e) (evWe e) (evAddr e) (evData e) = e := by
  unfold eventWord evPort evWe evAddr evData
  rw [BitVec.extractLsb'_append_extractLsb'_eq_extractLsb' (by omega),
    BitVec.extractLsb'_append_extractLsb'_eq_extractLsb' (by omega),
    BitVec.extractLsb'_append_extractLsb'_eq_extractLsb' (by omega)]
  exact BitVec.extractLsb'_eq_self

/-- A coefficient register is found at its address (R95). -/
@[simp] theorem coefAt_coefAddr (s : Stage) (k : CoefIx) : coefAt (coefAddr s k) = some (s, k) := by
  cases s <;> cases k <;> decide

theorem coefAddr_ne (s : Stage) (k : CoefIx) :
    coefAddr s k ≠ ctrlAddr ∧ coefAddr s k ≠ statusAddr ∧ coefAddr s k ≠ frameCntAddr ∧
      coefAddr s k ≠ cursorAddr := by
  cases s <;> cases k <;> decide

/-- The offset of a window address (R96). -/
@[simp] theorem slotAddr_offset (i : Code) : (slotAddr i).extractLsb' 0 16 = i :=
  BitVec.extractLsb'_append_eq_right

theorem slotAddr_top (i : Code) : (slotAddr i).extractLsb' 16 1 = 1#1 :=
  BitVec.extractLsb'_append_eq_left

@[simp] theorem inRingWindow_slotAddr (i : Code) : inRingWindow (slotAddr i) = true := by
  simp [inRingWindow, slotAddr_top]

/-- An address of the ring window is none of the registers (R32). -/
theorem inRingWindow_excludes {a : Addr} (h : inRingWindow a = true) :
    a ≠ ctrlAddr ∧ a ≠ statusAddr ∧ a ≠ frameCntAddr ∧ a ≠ cursorAddr ∧ coefAt a = none := by
  have h16 : a.extractLsb' 16 1 = 1#1 := by simpa [inRingWindow] using h
  refine ⟨?_, ?_, ?_, ?_, ?_⟩
  · rintro rfl; revert h16; decide
  · rintro rfl; revert h16; decide
  · rintro rfl; revert h16; decide
  · rintro rfl; revert h16; decide
  · unfold coefAt
    rw [if_neg]
    intro hc
    have e1 : (a.extractLsb' 5 12).extractLsb' 11 1 = a.extractLsb' 16 1 := by
      ext i hi
      obtain rfl : i = 0 := by omega
      simp
    rw [hc, h16] at e1
    revert e1
    decide

/-! ## What the decoder answers -/

theorem decode_busWrite (a : Addr) (d : Word) :
    decode (eventWord 0#2 1#1 a d) = .ok (decodeWrite a d) := by
  simp [decode]

theorem decode_busRead (a : Addr) : decode (encodeRead a) = .ok (decodeRead a) := by
  simp [decode, encodeRead]

theorem decode_command (c : BitVec 4) :
    decode (encodeCommand c) = .ok (decodeCommand (0#28 ++ c)) := by
  unfold encodeCommand
  rw [decode_busWrite]
  simp [decodeWrite]

@[simp] theorem command_field (h : BitVec 28) (c : BitVec 4) :
    BitVec.extractLsb' 0 4 (h ++ c : Word) = c :=
  BitVec.extractLsb'_append_eq_right

/-- A read of a reserved address is `RDRSVD` (R97). -/
theorem decodeRead_reserved {a : Addr} (h : readReserved a = true) : decodeRead a = .rdrsvd a := by
  simp only [readReserved, Bool.and_eq_true, bne_iff_ne, ne_eq, Option.isNone_iff_eq_none,
    Bool.not_eq_true'] at h
  obtain ⟨⟨⟨⟨h1, h2⟩, h3⟩, h4⟩, h5⟩ := h
  simp [decodeRead, h1, h2, h3, h4, h5]

/-- A write to a reserved or read-only address is `WRRSVD` (R97). -/
theorem decodeWrite_reserved {a : Addr} (h : writeReserved a = true) (d : Word) :
    decodeWrite a d = .wrrsvd a d := by
  simp only [writeReserved, Bool.and_eq_true, bne_iff_ne, ne_eq, Option.isNone_iff_eq_none] at h
  simp [decodeWrite, h.1, h.2]

end Sys2Proof
end

