-- ==== Sys2Proof/Laws/Memory.lean ====
section
/-! SUPPORT. The laws of the ring memory: read after write, what a `RESET` does to it, and that every
operation keeps the canonical form (spec/10_state.md R29; spec/41_ring.md R168). -/

namespace Sys2Proof.Machine.Memory

theorem find_write_same (m : Memory) (n : Nat) (d : Code) :
    Memory.find (Memory.write m n d) n = some ⟨d, true⟩ := by
  induction m with
  | nil => simp [write, find]
  | cons e rest ih =>
    obtain ⟨k, v⟩ := e
    simp only [write]
    split
    · simp [find]
    · split
      · simp [find]
      · rename_i hlt hne
        simp [find, hne, ih]

theorem find_write_other (m : Memory) {n k : Nat} (d : Code) (h : k ≠ n) :
    Memory.find (Memory.write m n d) k = Memory.find m k := by
  induction m with
  | nil => simp [write, find, h]
  | cons e rest ih =>
    obtain ⟨j, v⟩ := e
    simp only [write]
    split
    · simp [find, h]
    · split
      · rename_i _ he
        subst he
        simp [find, h]
      · simp [find, ih]

/-- A slot reads as the code just written to it. -/
@[simp] theorem read_write_same (m : Memory) (n : Nat) (d : Code) :
    Memory.read (Memory.write m n d) n = some d := by
  simp [read, find_write_same]

/-- A write leaves every other slot alone. -/
theorem read_write_other (m : Memory) {n k : Nat} (d : Code) (h : k ≠ n) :
    Memory.read (Memory.write m n d) k = Memory.read m k := by
  simp [read, find_write_other m d h]

@[simp] theorem code_write_same (m : Memory) (n : Nat) (d : Code) :
    Memory.code (Memory.write m n d) n = some d := by
  simp [code, find_write_same]

theorem code_write_other (m : Memory) {n k : Nat} (d : Code) (h : k ≠ n) :
    Memory.code (Memory.write m n d) k = Memory.code m k := by
  simp [code, find_write_other m d h]

/-- An entry of the memory after a write is the new one or an old one. -/
theorem mem_write {m : Memory} {n : Nat} {d : Code} {e : Nat × Slot}
    (h : e ∈ Memory.write m n d) : e = (n, ⟨d, true⟩) ∨ e ∈ m := by
  induction m with
  | nil => simpa [write] using h
  | cons a rest ih =>
    obtain ⟨k, v⟩ := a
    simp only [write] at h
    split at h
    · simpa using h
    · split at h
      · rcases List.mem_cons.1 h with h | h
        · exact .inl h
        · exact .inr (List.mem_cons_of_mem _ h)
      · rcases List.mem_cons.1 h with h | h
        · exact .inr (h ▸ List.mem_cons_self)
        · exact (ih h).imp_right (List.mem_cons_of_mem _)

/-- A write keeps the canonical form. -/
theorem wf_write {m : Memory} (h : Memory.wf m) (n : Nat) (d : Code) :
    Memory.wf (Memory.write m n d) := by
  induction m with
  | nil => simp [write]
  | cons a rest ih =>
    obtain ⟨k, v⟩ := a
    obtain ⟨hk, hr⟩ := List.pairwise_cons.1 h
    simp only [write]
    split
    · rename_i hlt
      refine List.pairwise_cons.2 ⟨fun e he => ?_, h⟩
      rcases List.mem_cons.1 he with he | he
      · subst he; exact hlt
      · exact lt_trans hlt (hk e he)
    · split
      · rename_i _ he
        subst he
        exact List.pairwise_cons.2 ⟨hk, hr⟩
      · rename_i h1 h2
        refine List.pairwise_cons.2 ⟨fun e he => ?_, ih hr⟩
        rcases mem_write he with he | he
        · subst he; show k < n; omega
        · exact hk e he

theorem find_stale (m : Memory) (n : Nat) :
    Memory.find (Memory.stale m) n = (Memory.find m n).map fun v => { v with fresh := false } := by
  induction m with
  | nil => rfl
  | cons a rest ih =>
    obtain ⟨k, v⟩ := a
    have e : Memory.stale ((k, v) :: rest) = (k, { v with fresh := false }) :: Memory.stale rest := rfl
    rw [e]
    simp only [find]
    split
    · rfl
    · exact ih

/-- After a `RESET` no slot counts as written. -/
@[simp] theorem read_stale (m : Memory) (n : Nat) : Memory.read (Memory.stale m) n = none := by
  unfold read
  rw [find_stale]
  cases Memory.find m n <;> rfl

/-- A `RESET` changes no code. -/
@[simp] theorem code_stale (m : Memory) (n : Nat) :
    Memory.code (Memory.stale m) n = Memory.code m n := by
  unfold code
  rw [find_stale]
  cases Memory.find m n <;> rfl

/-- A `RESET` keeps the canonical form. -/
theorem wf_stale {m : Memory} (h : Memory.wf m) : Memory.wf (Memory.stale m) := by
  unfold stale Memory.wf
  rw [List.pairwise_map]
  exact h

theorem mem_stale {m : Memory} {e : Nat × Slot} (h : e ∈ Memory.stale m) :
    e.2.fresh = false ∧ ∃ a ∈ m, a.1 = e.1 := by
  obtain ⟨a, ha, rfl⟩ := List.mem_map.1 h
  exact ⟨rfl, a, ha, rfl⟩

end Sys2Proof.Machine.Memory
end

