-- ==== Sys2Proof/Laws/State.lean ====
section
/-! SUPPORT. One lemma per field per state operation of Sys2Proof/Machine/Ops.lean, so that no proof
unfolds a record update. -/

namespace Sys2Proof.Machine.State

variable (s : State)

/-! ## `emit` -/

@[simp] theorem emit_coefS (w : Word) : (s.emit w).coefS = s.coefS := rfl
@[simp] theorem emit_coefA (w : Word) : (s.emit w).coefA = s.coefA := rfl
@[simp] theorem emit_hist (w : Word) : (s.emit w).hist = s.hist := rfl
@[simp] theorem emit_isat (w : Word) : (s.emit w).isat = s.isat := rfl
@[simp] theorem emit_frameCnt (w : Word) : (s.emit w).frameCnt = s.frameCnt := rfl
@[simp] theorem emit_rphase (w : Word) : (s.emit w).rphase = s.rphase := rfl
@[simp] theorem emit_cursor (w : Word) : (s.emit w).cursor = s.cursor := rfl
@[simp] theorem emit_ring (w : Word) : (s.emit w).ring = s.ring := rfl
@[simp] theorem emit_ringAw (w : Word) : (s.emit w).ringAw = s.ringAw := rfl
@[simp] theorem emit_freeCtr (w : Word) : (s.emit w).freeCtr = s.freeCtr := rfl
@[simp] theorem emit_pending (w : Word) : (s.emit w).pending = s.pending := rfl
@[simp] theorem emit_out (w : Word) : (s.emit w).out = s.out ++ [w] := rfl
@[simp] theorem emit_reads (w : Word) : (s.emit w).reads = s.reads := rfl

/-! ## `answer` -/

@[simp] theorem answer_coefS (v : Word) : (s.answer v).coefS = s.coefS := rfl
@[simp] theorem answer_coefA (v : Word) : (s.answer v).coefA = s.coefA := rfl
@[simp] theorem answer_hist (v : Word) : (s.answer v).hist = s.hist := rfl
@[simp] theorem answer_isat (v : Word) : (s.answer v).isat = s.isat := rfl
@[simp] theorem answer_frameCnt (v : Word) : (s.answer v).frameCnt = s.frameCnt := rfl
@[simp] theorem answer_rphase (v : Word) : (s.answer v).rphase = s.rphase := rfl
@[simp] theorem answer_cursor (v : Word) : (s.answer v).cursor = s.cursor := rfl
@[simp] theorem answer_ring (v : Word) : (s.answer v).ring = s.ring := rfl
@[simp] theorem answer_ringAw (v : Word) : (s.answer v).ringAw = s.ringAw := rfl
@[simp] theorem answer_freeCtr (v : Word) : (s.answer v).freeCtr = s.freeCtr := rfl
@[simp] theorem answer_pending (v : Word) : (s.answer v).pending = s.pending := rfl
@[simp] theorem answer_out (v : Word) : (s.answer v).out = s.out := rfl
@[simp] theorem answer_reads (v : Word) : (s.answer v).reads = s.reads ++ [v] := rfl

/-! ## `putShadow` -/

@[simp] theorem putShadow_coefS (st : Stage) (k : CoefIx) (v : Word) :
    (s.putShadow st k v).coefS =
      s.coefS.put st k v := rfl
@[simp] theorem putShadow_coefA (st : Stage) (k : CoefIx) (v : Word) :
    (s.putShadow st k v).coefA =
      s.coefA := rfl
@[simp] theorem putShadow_hist (st : Stage) (k : CoefIx) (v : Word) :
    (s.putShadow st k v).hist =
      s.hist := rfl
@[simp] theorem putShadow_isat (st : Stage) (k : CoefIx) (v : Word) :
    (s.putShadow st k v).isat =
      s.isat := rfl
@[simp] theorem putShadow_frameCnt (st : Stage) (k : CoefIx) (v : Word) :
    (s.putShadow st k v).frameCnt =
      s.frameCnt := rfl
@[simp] theorem putShadow_rphase (st : Stage) (k : CoefIx) (v : Word) :
    (s.putShadow st k v).rphase =
      s.rphase := rfl
@[simp] theorem putShadow_cursor (st : Stage) (k : CoefIx) (v : Word) :
    (s.putShadow st k v).cursor =
      s.cursor := rfl
@[simp] theorem putShadow_ring (st : Stage) (k : CoefIx) (v : Word) :
    (s.putShadow st k v).ring =
      s.ring := rfl
@[simp] theorem putShadow_ringAw (st : Stage) (k : CoefIx) (v : Word) :
    (s.putShadow st k v).ringAw =
      s.ringAw := rfl
@[simp] theorem putShadow_freeCtr (st : Stage) (k : CoefIx) (v : Word) :
    (s.putShadow st k v).freeCtr =
      s.freeCtr := rfl
@[simp] theorem putShadow_pending (st : Stage) (k : CoefIx) (v : Word) :
    (s.putShadow st k v).pending =
      s.pending := rfl
@[simp] theorem putShadow_out (st : Stage) (k : CoefIx) (v : Word) :
    (s.putShadow st k v).out =
      s.out := rfl
@[simp] theorem putShadow_reads (st : Stage) (k : CoefIx) (v : Word) :
    (s.putShadow st k v).reads =
      s.reads := rfl

/-! ## `publish` -/

@[simp] theorem publish_coefS : s.publish.coefS = s.coefS := rfl
@[simp] theorem publish_coefA : s.publish.coefA = s.coefS := rfl
@[simp] theorem publish_hist : s.publish.hist = s.hist := rfl
@[simp] theorem publish_isat : s.publish.isat = s.isat := rfl
@[simp] theorem publish_frameCnt : s.publish.frameCnt = s.frameCnt := rfl
@[simp] theorem publish_rphase : s.publish.rphase = s.rphase := rfl
@[simp] theorem publish_cursor : s.publish.cursor = s.cursor := rfl
@[simp] theorem publish_ring : s.publish.ring = s.ring := rfl
@[simp] theorem publish_ringAw : s.publish.ringAw = s.ringAw := rfl
@[simp] theorem publish_freeCtr : s.publish.freeCtr = s.freeCtr := rfl
@[simp] theorem publish_pending : s.publish.pending = s.pending := rfl
@[simp] theorem publish_out : s.publish.out = s.out := rfl
@[simp] theorem publish_reads : s.publish.reads = s.reads := rfl

/-! ## `clearHist` -/

@[simp] theorem clearHist_coefS : s.clearHist.coefS = s.coefS := rfl
@[simp] theorem clearHist_coefA : s.clearHist.coefA = s.coefA := rfl
@[simp] theorem clearHist_hist : s.clearHist.hist = Histories.zero := rfl
@[simp] theorem clearHist_isat : s.clearHist.isat = s.isat := rfl
@[simp] theorem clearHist_frameCnt : s.clearHist.frameCnt = s.frameCnt := rfl
@[simp] theorem clearHist_rphase : s.clearHist.rphase = s.rphase := rfl
@[simp] theorem clearHist_cursor : s.clearHist.cursor = s.cursor := rfl
@[simp] theorem clearHist_ring : s.clearHist.ring = s.ring := rfl
@[simp] theorem clearHist_ringAw : s.clearHist.ringAw = s.ringAw := rfl
@[simp] theorem clearHist_freeCtr : s.clearHist.freeCtr = s.freeCtr := rfl
@[simp] theorem clearHist_pending : s.clearHist.pending = s.pending := rfl
@[simp] theorem clearHist_out : s.clearHist.out = s.out := rfl
@[simp] theorem clearHist_reads : s.clearHist.reads = s.reads := rfl

/-! ## `processFrame` -/

@[simp] theorem processFrame_coefS (w : Word) : (s.processFrame w).coefS = s.coefS := rfl
@[simp] theorem processFrame_coefA (w : Word) : (s.processFrame w).coefA = s.coefA := rfl
@[simp] theorem processFrame_hist (w : Word) :
    (s.processFrame w).hist =
      ⟨(s.leftLane w).hp.hist, (s.leftLane w).lp.hist, (s.rightLane w).hp.hist, (s.rightLane w).lp.hist⟩ := rfl
@[simp] theorem processFrame_isat (w : Word) :
    (s.processFrame w).isat =
      isatAfter s.isat (s.leftLane w).hp.saturated (s.leftLane w).lp.saturated (s.rightLane w).hp.saturated (s.rightLane w).lp.saturated := rfl
@[simp] theorem processFrame_frameCnt (w : Word) :
    (s.processFrame w).frameCnt =
      s.frameCnt + 1#32 := rfl
@[simp] theorem processFrame_rphase (w : Word) : (s.processFrame w).rphase = s.rphase := rfl
@[simp] theorem processFrame_cursor (w : Word) : (s.processFrame w).cursor = s.cursor := rfl
@[simp] theorem processFrame_ring (w : Word) : (s.processFrame w).ring = s.ring := rfl
@[simp] theorem processFrame_ringAw (w : Word) : (s.processFrame w).ringAw = s.ringAw := rfl
@[simp] theorem processFrame_freeCtr (w : Word) : (s.processFrame w).freeCtr = s.freeCtr := rfl
@[simp] theorem processFrame_pending (w : Word) : (s.processFrame w).pending = s.pending := rfl
@[simp] theorem processFrame_out (w : Word) :
    (s.processFrame w).out =
      s.out ++ [pack (s.leftLane w).sample (s.rightLane w).sample] := rfl
@[simp] theorem processFrame_reads (w : Word) : (s.processFrame w).reads = s.reads := rfl

/-! ## `storeCode` -/

@[simp] theorem storeCode_coefS (d : Code) : (s.storeCode d).coefS = s.coefS := rfl
@[simp] theorem storeCode_coefA (d : Code) : (s.storeCode d).coefA = s.coefA := rfl
@[simp] theorem storeCode_hist (d : Code) : (s.storeCode d).hist = s.hist := rfl
@[simp] theorem storeCode_isat (d : Code) : (s.storeCode d).isat = s.isat := rfl
@[simp] theorem storeCode_frameCnt (d : Code) : (s.storeCode d).frameCnt = s.frameCnt := rfl
@[simp] theorem storeCode_rphase (d : Code) : (s.storeCode d).rphase = Phase.sampling := rfl
@[simp] theorem storeCode_cursor (d : Code) : (s.storeCode d).cursor = s.cursor + 1#32 := rfl
@[simp] theorem storeCode_ring (d : Code) :
    (s.storeCode d).ring =
      Memory.write s.ring (writeSlot s.ringAw s.cursor) d := rfl
@[simp] theorem storeCode_ringAw (d : Code) : (s.storeCode d).ringAw = s.ringAw := rfl
@[simp] theorem storeCode_freeCtr (d : Code) : (s.storeCode d).freeCtr = s.freeCtr := rfl
@[simp] theorem storeCode_pending (d : Code) : (s.storeCode d).pending = s.pending := rfl
@[simp] theorem storeCode_out (d : Code) : (s.storeCode d).out = s.out := rfl
@[simp] theorem storeCode_reads (d : Code) : (s.storeCode d).reads = s.reads := rfl

/-! ## `doReset` -/

@[simp] theorem doReset_coefS : s.doReset.coefS = Bank.zero := rfl
@[simp] theorem doReset_coefA : s.doReset.coefA = Bank.zero := rfl
@[simp] theorem doReset_hist : s.doReset.hist = Histories.zero := rfl
@[simp] theorem doReset_isat : s.doReset.isat = false := rfl
@[simp] theorem doReset_frameCnt : s.doReset.frameCnt = 0#32 := rfl
@[simp] theorem doReset_rphase : s.doReset.rphase = Phase.idle := rfl
@[simp] theorem doReset_cursor : s.doReset.cursor = 0#32 := rfl
@[simp] theorem doReset_ring : s.doReset.ring = Memory.stale s.ring := rfl
@[simp] theorem doReset_ringAw : s.doReset.ringAw = s.ringAw := rfl
@[simp] theorem doReset_freeCtr : s.doReset.freeCtr = s.freeCtr := rfl
@[simp] theorem doReset_pending : s.doReset.pending = s.pending := rfl
@[simp] theorem doReset_out : s.doReset.out = s.out := rfl
@[simp] theorem doReset_reads : s.doReset.reads = s.reads := rfl

/-! ## `armRing` -/

@[simp] theorem armRing_coefS : s.armRing.coefS = s.coefS := by
  cases h : s.rphase <;> simp [armRing, h]
@[simp] theorem armRing_coefA : s.armRing.coefA = s.coefA := by
  cases h : s.rphase <;> simp [armRing, h]
@[simp] theorem armRing_hist : s.armRing.hist = s.hist := by
  cases h : s.rphase <;> simp [armRing, h]
@[simp] theorem armRing_isat : s.armRing.isat = s.isat := by
  cases h : s.rphase <;> simp [armRing, h]
@[simp] theorem armRing_frameCnt : s.armRing.frameCnt = s.frameCnt := by
  cases h : s.rphase <;> simp [armRing, h]
@[simp] theorem armRing_cursor : s.armRing.cursor = s.cursor := by
  cases h : s.rphase <;> simp [armRing, h]
@[simp] theorem armRing_ring : s.armRing.ring = s.ring := by
  cases h : s.rphase <;> simp [armRing, h]
@[simp] theorem armRing_ringAw : s.armRing.ringAw = s.ringAw := by
  cases h : s.rphase <;> simp [armRing, h]
@[simp] theorem armRing_freeCtr : s.armRing.freeCtr = s.freeCtr := by
  cases h : s.rphase <;> simp [armRing, h]
@[simp] theorem armRing_pending : s.armRing.pending = s.pending := by
  cases h : s.rphase <;> simp [armRing, h]
@[simp] theorem armRing_out : s.armRing.out = s.out := by
  cases h : s.rphase <;> simp [armRing, h]
@[simp] theorem armRing_reads : s.armRing.reads = s.reads := by
  cases h : s.rphase <;> simp [armRing, h]

/-! ## `timerFire` -/

@[simp] theorem timerFire_coefS (d : Code) : (s.timerFire d).coefS = s.coefS := by
  cases h : s.rphase <;> simp [timerFire, h]
@[simp] theorem timerFire_coefA (d : Code) : (s.timerFire d).coefA = s.coefA := by
  cases h : s.rphase <;> simp [timerFire, h]
@[simp] theorem timerFire_hist (d : Code) : (s.timerFire d).hist = s.hist := by
  cases h : s.rphase <;> simp [timerFire, h]
@[simp] theorem timerFire_isat (d : Code) : (s.timerFire d).isat = s.isat := by
  cases h : s.rphase <;> simp [timerFire, h]
@[simp] theorem timerFire_frameCnt (d : Code) : (s.timerFire d).frameCnt = s.frameCnt := by
  cases h : s.rphase <;> simp [timerFire, h]
@[simp] theorem timerFire_ringAw (d : Code) : (s.timerFire d).ringAw = s.ringAw := by
  cases h : s.rphase <;> simp [timerFire, h]
@[simp] theorem timerFire_freeCtr (d : Code) : (s.timerFire d).freeCtr = s.freeCtr := by
  cases h : s.rphase <;> simp [timerFire, h]
@[simp] theorem timerFire_pending (d : Code) : (s.timerFire d).pending = s.pending := by
  cases h : s.rphase <;> simp [timerFire, h]
@[simp] theorem timerFire_out (d : Code) : (s.timerFire d).out = s.out := by
  cases h : s.rphase <;> simp [timerFire, h]
@[simp] theorem timerFire_reads (d : Code) : (s.timerFire d).reads = s.reads := by
  cases h : s.rphase <;> simp [timerFire, h]

/-! ## `readRing` -/

@[simp] theorem readRing_coefS (i : Code) : (s.readRing i).coefS = s.coefS := by
  unfold readRing; split <;> rfl
@[simp] theorem readRing_coefA (i : Code) : (s.readRing i).coefA = s.coefA := by
  unfold readRing; split <;> rfl
@[simp] theorem readRing_hist (i : Code) : (s.readRing i).hist = s.hist := by
  unfold readRing; split <;> rfl
@[simp] theorem readRing_isat (i : Code) : (s.readRing i).isat = s.isat := by
  unfold readRing; split <;> rfl
@[simp] theorem readRing_frameCnt (i : Code) : (s.readRing i).frameCnt = s.frameCnt := by
  unfold readRing; split <;> rfl
@[simp] theorem readRing_rphase (i : Code) : (s.readRing i).rphase = s.rphase := by
  unfold readRing; split <;> rfl
@[simp] theorem readRing_cursor (i : Code) : (s.readRing i).cursor = s.cursor := by
  unfold readRing; split <;> rfl
@[simp] theorem readRing_ring (i : Code) : (s.readRing i).ring = s.ring := by
  unfold readRing; split <;> rfl
@[simp] theorem readRing_ringAw (i : Code) : (s.readRing i).ringAw = s.ringAw := by
  unfold readRing; split <;> rfl
@[simp] theorem readRing_pending (i : Code) : (s.readRing i).pending = s.pending := by
  unfold readRing; split <;> rfl
@[simp] theorem readRing_out (i : Code) : (s.readRing i).out = s.out := by
  unfold readRing; split <;> rfl

end Sys2Proof.Machine.State
end

