-- ==== Sys2Proof/Laws/Ops.lean ====
section
/-! SUPPORT. What each shared operation and `exec` can do, once each. -/

namespace Sys2Proof.Machine

/-! ## Coefficient registers -/

@[simp] theorem CoefSet.get_put_same (c : CoefSet) (k : CoefIx) (v : Word) :
    (c.put k v).get k = v := by
  cases k <;> rfl

theorem CoefSet.get_put_other (c : CoefSet) {k j : CoefIx} (v : Word) (h : j ≠ k) :
    (c.put k v).get j = c.get j := by
  cases k <;> cases j <;> first | rfl | exact absurd rfl h

@[simp] theorem Bank.get_put_same (b : Bank) (s : Stage) (k : CoefIx) (v : Word) :
    (b.put s k v).get s k = v := by
  cases s <;> exact CoefSet.get_put_same _ _ _

theorem Bank.get_put_other (b : Bank) {s t : Stage} {k j : CoefIx} (v : Word)
    (h : (t, j) ≠ (s, k)) : (b.put s k v).get t j = b.get t j := by
  by_cases hs : t = s
  · subst hs
    have hj : j ≠ k := fun e => h (by rw [e])
    cases t <;> exact CoefSet.get_put_other _ _ hj
  · cases s <;> cases t <;> first | rfl | exact absurd rfl hs

/-- A bank is its twenty words. -/
theorem Bank.ext_get {a b : Bank} (h : ∀ s k, a.get s k = b.get s k) : a = b := by
  have hset : ∀ c d : CoefSet, (∀ k, c.get k = d.get k) → c = d := by
    intro c d hk
    obtain ⟨c0, c1, c2, c3, c4⟩ := c
    obtain ⟨d0, d1, d2, d3, d4⟩ := d
    have := hk .b0; have := hk .b1; have := hk .b2; have := hk .a1; have := hk .a2
    simp_all [CoefSet.get]
  obtain ⟨a0, a1, a2, a3⟩ := a
  obtain ⟨b0, b1, b2, b3⟩ := b
  congr
  · exact hset _ _ (h .hpl)
  · exact hset _ _ (h .lpl)
  · exact hset _ _ (h .hpr)
  · exact hset _ _ (h .lpr)

/-! ## Ring -/

theorem cap_pos (aw : RingAw) : 0 < aw.cap := Nat.two_pow_pos _

theorem cap_eq (aw : RingAw) : aw.cap = 2 ^ aw.width := rfl

theorem width_le (aw : RingAw) : 1 ≤ aw.width ∧ aw.width ≤ 16 := by
  unfold RingAw.width
  omega

/-- `CAP` divides `2^16` (R202). -/
theorem cap_dvd_window (aw : RingAw) : aw.cap ∣ 2 ^ 16 := pow_dvd_pow 2 (width_le aw).2

/-- `CAP` divides `2^32` (R165). -/
theorem cap_dvd_cursor (aw : RingAw) : aw.cap ∣ 2 ^ 32 :=
  pow_dvd_pow 2 ((width_le aw).2.trans (by omega))

theorem cap_le (aw : RingAw) : aw.cap ≤ 65536 := Nat.pow_le_pow_right (by omega) (width_le aw).2

/-- The mask of R28 is the remainder: only the low `RING_AW` bits select the slot (R52). -/
theorem writeSlot_eq_mod (aw : RingAw) (c : Word) : writeSlot aw c = c.toNat % aw.cap :=
  Nat.and_two_pow_sub_one_eq_mod _ _

theorem writeSlot_lt (aw : RingAw) (c : Word) : writeSlot aw c < aw.cap := by
  rw [writeSlot_eq_mod]
  exact Nat.mod_lt _ (cap_pos aw)

theorem timerFire_idle {s : State} (h : s.rphase = .idle) (d : Code) : s.timerFire d = s := by
  simp [State.timerFire, h]

theorem timerFire_enabled {s : State} (h : s.rphase ≠ .idle) (d : Code) :
    s.timerFire d = s.storeCode d := by
  cases hp : s.rphase <;> simp_all [State.timerFire]

theorem armRing_idle {s : State} (h : s.rphase = .idle) :
    s.armRing = { s with rphase := .armed } := by
  simp [State.armRing, h]

theorem armRing_enabled {s : State} (h : s.rphase ≠ .idle) : s.armRing = s := by
  cases hp : s.rphase <;> simp_all [State.armRing]

theorem readRing_written {s : State} {i c : Code}
    (h : Memory.read s.ring (readSlot s.ringAw i) = some c) :
    s.readRing i = s.answer (zextCode c) := by
  simp [State.readRing, h]

theorem readRing_unwritten {s : State} {i : Code}
    (h : Memory.read s.ring (readSlot s.ringAw i) = none) :
    s.readRing i =
      State.answer { s with freeCtr := s.freeCtr + 1 } (zextCode (Config.freeCode s.freeCtr)) := by
  simp [State.readRing, h]

/-! ## The stage -/

@[simp] theorem biquad_y (c : CoefSet) (h : History) (x : Word) :
    (biquad c h x).y = trunc 32 (sat 32 (stageRounded c h x)) := rfl

@[simp] theorem biquad_hist (c : CoefSet) (h : History) (x : Word) :
    (biquad c h x).hist = ⟨x, h.x1, (biquad c h x).y, h.y1⟩ := rfl

@[simp] theorem biquad_saturated (c : CoefSet) (h : History) (x : Word) :
    (biquad c h x).saturated = decide (stageRounded c h x ≠ sat 32 (stageRounded c h x)) := rfl

/-- A stage reports saturation exactly when its rounded result does not fit (R121 law 6). -/
theorem biquad_saturated_iff (c : CoefSet) (h : History) (x : Word) :
    (biquad c h x).saturated = true ↔ stageOverflows c h x := by
  have e := sat_ne_iff 32 (stageRounded c h x)
  rw [ne_comm] at e
  simpa [stageOverflows] using e

/-- With zero coefficients a stage answers zero and still shifts its input in (R120). -/
theorem biquad_zeroCoefs (h : History) (x : Word) :
    biquad .zero h x = ⟨0#32, false, ⟨x, h.x1, 0#32, h.y1⟩⟩ := by
  have h0 : stageRounded .zero h x = 0 := by
    simp [stageRounded, stageAcc, CoefSet.zero, rhu, Config.coefF]
  have hs : sat 32 0 = 0 := by decide
  simp [biquad, h0, hs, Config.sigW, trunc]

/-! ## `exec` -/

/-- The state after an operation: no operation fails (R230). -/
def after (i : Instr) (s : State) : State :=
  match i with
  | .reset => s.doReset
  | .frame w => s.processFrame w
  | .tick d => s.timerFire d
  | .nop => s
  | .commit => s.publish
  | .clrhist => s.clearHist
  | .commitclr => s.publish.clearHist
  | .arm => s.armRing
  | .wrcoef st k v => s.putShadow st k v
  | .rdstatus => s.answer (statusWord s.isat s.rphase)
  | .rdframecnt => s.answer s.frameCnt
  | .rdcursor => s.answer s.cursor
  | .rdcoef st k => s.answer (s.coefS.get st k)
  | .rdslot off => s.readRing off
  | .cmdrsvd _ => s
  | .rdrsvd _ => s.answer 0#32
  | .wrrsvd _ _ => s

/-- Everything `exec` can do: it answers the next state `after i s`. -/
theorem exec_eq (i : Instr) (s : State) : exec i s = .next (after i s) := by
  cases i <;> rfl

theorem exec_next_iff {i : Instr} {s t : State} : exec i s = .next t ↔ t = after i s := by
  rw [exec_eq]
  constructor
  · intro h; injection h with h; exact h.symm
  · rintro rfl; rfl

/-- `RING_AW` is fixed at build (R9): no operation changes it. -/
@[simp] theorem after_ringAw (i : Instr) (s : State) : (after i s).ringAw = s.ringAw := by
  cases i <;> simp [after]

@[simp] theorem after_cap (i : Instr) (s : State) : (after i s).cap = s.cap := by
  simp [State.cap]

/-- No operation takes an event from the trace: only `step` does. -/
@[simp] theorem after_pending (i : Instr) (s : State) : (after i s).pending = s.pending := by
  cases i <;> simp [after]

/-- What an operation emits: a `FRAME` one word, every other operation none (R122). -/
theorem after_out (i : Instr) (s : State) :
    ∃ ws, (after i s).out = s.out ++ ws ∧ ws.length = if i.isFrame then 1 else 0 := by
  cases i <;> first | exact ⟨[], by simp [after], rfl⟩ | exact ⟨_, rfl, rfl⟩

/-- What a read returns stands at the end of the read data, and nothing before it moves (R12). -/
theorem after_reads (i : Instr) (s : State) :
    ∃ rs, (after i s).reads = s.reads ++ rs ∧ rs.length = if i.isRead then 1 else 0 := by
  cases i
  case rdslot off =>
    show ∃ rs, (s.readRing off).reads = _ ∧ _
    cases h : Memory.read s.ring (readSlot s.ringAw off) with
    | none => exact ⟨_, by rw [readRing_unwritten h]; rfl, rfl⟩
    | some c => exact ⟨_, by rw [readRing_written h]; rfl, rfl⟩
  all_goals first | exact ⟨[], by simp [after], rfl⟩ | exact ⟨_, rfl, rfl⟩

/-- Performing a list of operations. -/
theorem execAll_eq (is : List Instr) (s : State) :
    execAll is s = .next (is.foldl (fun t i => after i t) s) := by
  induction is generalizing s with
  | nil => rfl
  | cons i rest ih => simp [execAll, exec_eq, ih]

theorem execAll_cons (i : Instr) (is : List Instr) (s : State) :
    execAll (i :: is) s = execAll is (after i s) := by
  simp [execAll, exec_eq]

/-- The induction over a list of operations, packaged once: what holds at the start and is kept by every
operation of the list holds at the end. -/
theorem execAll_keeps {P : State → Prop} {is : List Instr} {s t : State} (h : execAll is s = .next t)
    (h0 : P s) (hk : ∀ i ∈ is, ∀ u, P u → P (after i u)) : P t := by
  induction is generalizing s with
  | nil => injection h with h; exact h ▸ h0
  | cons i rest ih =>
    rw [execAll_cons] at h
    exact ih h (hk i List.mem_cons_self s h0) fun j hj => hk j (List.mem_cons_of_mem _ hj)

theorem execAll_append (is js : List Instr) (s : State) :
    execAll (is ++ js) s = execAll js (is.foldl (fun t i => after i t) s) := by
  simp [execAll_eq, List.foldl_append]

/-- Everything `step` can do. -/
theorem step_next_iff {s t : State} :
    step s = .next t ↔
      (s.pending = [] ∧ t = s) ∨
      ∃ e rest i, s.pending = e :: rest ∧ decode e = .ok i ∧ t = after i { s with pending := rest } := by
  unfold step
  cases hp : s.pending with
  | nil =>
    constructor
    · intro h; injection h with h; exact .inl ⟨rfl, h.symm⟩
    · rintro (⟨_, rfl⟩ | ⟨e, rest, i, h, _⟩)
      · rfl
      · cases h
  | cons e rest =>
    cases hd : decode e with
    | ok i =>
      simp only [hd, exec_next_iff]
      constructor
      · intro h; exact .inr ⟨e, rest, i, rfl, hd, h⟩
      · rintro (⟨h, _⟩ | ⟨e', rest', i', h, hd', rfl⟩)
        · cases h
        · cases h
          rw [hd] at hd'
          cases hd'
          rfl
    | invalid r =>
      simp only [hd]
      constructor
      · intro h; cases h
      · rintro (⟨h, _⟩ | ⟨e', rest', i', h, hd', _⟩)
        · cases h
        · cases h
          rw [hd] at hd'
          cases hd'

end Sys2Proof.Machine
end

