-- ==== Sys2Proof/Laws/Host.lean ====
section
/-! SUPPORT. The host's real numbers, and a host that answers to its read data. -/

namespace Sys2Proof.Machine

/-- `alpha = sin(omega) / √2` (R134), with the quality factor of R7. -/
theorem alphaAt_eq (f fs : ℝ) : alphaAt f fs = Real.sin (omegaAt f fs) / √2 := by
  have h2 : (2 : ℝ) * (1 / √2) = √2 := by
    rw [mul_one_div, div_eq_iff (by positivity), Real.mul_self_sqrt (by norm_num)]
  rw [alphaAt, Config.qualityFactor, h2]

@[simp] theorem windowNext_nil (k : Nat) : windowNext k [] = some .rdcursor := rfl

@[simp] theorem windowNext_cons (k : Nat) (c : Word) (ws : List Word) :
    windowNext k (c :: ws) =
      if ws.length < k then some (.rdslot (windowOffset c k ws.length)) else none := rfl

@[simp] theorem hostRun_nil (next : List Word → Option Instr) (returned : List Word) (s : State) :
    hostRun next [] returned s = some (s, returned) := rfl

/-- One event of a host: the other agents' operations, its own, and the data it returns. -/
theorem hostRun_event {next : List Word → Option Instr} {returned : List Word} {i : Instr}
    (h : next returned = some i) {gap : List Instr} {s t : State} (hg : execAll gap s = .next t)
    (gaps : List (List Instr)) :
    hostRun next (gap :: gaps) returned s =
      hostRun next gaps (returned ++ (after i t).reads.drop t.reads.length) (after i t) := by
  simp [hostRun, hg, h, exec_eq]

/-- A host with no more events: the other agents go on. -/
theorem hostRun_done {next : List Word → Option Instr} {returned : List Word}
    (h : next returned = none) {gap : List Instr} {s t : State} (hg : execAll gap s = .next t)
    (gaps : List (List Instr)) :
    hostRun next (gap :: gaps) returned s = hostRun next gaps returned t := by
  simp [hostRun, hg, h]

end Sys2Proof.Machine
end

