-- ==== Sys2Proof/Laws/PerInstr.lean ====
section
/-! SUPPORT. The family `RoundTrip`: decoding the encoding of a well-formed operation gives it back, one
lemma per constructor. -/

namespace Sys2Proof.Laws.RoundTrip

open Sys2Proof.Machine

/-- The event word of a well-formed operation decodes to it. -/
def Statement (i : Instr) : Prop := i.wf = true → decode (encode i) = .ok i

theorem reset : Statement .reset := fun _ => by decide

theorem frame (w : Word) : Statement (.frame w) := fun _ => by simp [decode, encode]

theorem tick (d : Code) : Statement (.tick d) := fun _ => by
  have hh : BitVec.extractLsb' 16 16 (0#16 ++ d : Word) = 0#16 := BitVec.extractLsb'_append_eq_left
  have hl : BitVec.extractLsb' 0 16 (0#16 ++ d : Word) = d := BitVec.extractLsb'_append_eq_right
  simp [decode, encode, hh, hl]

theorem nop : Statement .nop := fun _ => by decide
theorem commit : Statement .commit := fun _ => by decide
theorem clrhist : Statement .clrhist := fun _ => by decide
theorem commitclr : Statement .commitclr := fun _ => by decide
theorem arm : Statement .arm := fun _ => by decide

theorem wrcoef (s : Stage) (k : CoefIx) (v : Word) : Statement (.wrcoef s k v) := fun _ => by
  simp [encode, decode_busWrite, decodeWrite, (coefAddr_ne s k).1]

theorem rdstatus : Statement .rdstatus := fun _ => by decide
theorem rdframecnt : Statement .rdframecnt := fun _ => by decide
theorem rdcursor : Statement .rdcursor := fun _ => by decide

theorem rdcoef (s : Stage) (k : CoefIx) : Statement (.rdcoef s k) := fun _ => by
  obtain ⟨-, h1, h2, h3⟩ := coefAddr_ne s k
  simp [encode, decode_busRead, decodeRead, h1, h2, h3]

theorem rdslot (i : Code) : Statement (.rdslot i) := fun _ => by
  obtain ⟨-, h1, h2, h3, h4⟩ := inRingWindow_excludes (inRingWindow_slotAddr i)
  simp [encode, decode_busRead, decodeRead, h1, h2, h3, h4]

theorem cmdrsvd (c : BitVec 4) : Statement (.cmdrsvd c) := fun h => by
  have hc : 5 ≤ c.toNat := by simpa [Instr.wf] using h
  have hne : ∀ k : BitVec 4, k.toNat < 5 → c ≠ k := fun k hk e => by subst e; omega
  rw [encode, decode_command]
  simp only [decodeCommand, command_field, hne 0#4 (by decide), hne 1#4 (by decide),
    hne 2#4 (by decide), hne 3#4 (by decide), hne 4#4 (by decide), if_false]

theorem rdrsvd (a : Addr) : Statement (.rdrsvd a) := fun h => by
  rw [encode, decode_busRead, decodeRead_reserved h]

theorem wrrsvd (a : Addr) (v : Word) : Statement (.wrrsvd a v) := fun h => by
  rw [encode, decode_busWrite, decodeWrite_reserved h]

end Sys2Proof.Laws.RoundTrip
end

