-- ==== Sys2Proof/Laws/Signals.lean ====
section
/-! SUPPORT. Clock cycles: every word of a cycle spells an event, and so every cycle completes. -/

namespace Sys2Proof.Machine

/-- A step that takes the word `e`, which spells `i`, performs `i`. -/
theorem step_present {e : EventWord} {i : Instr} (h : decode e = .ok i) (s : State) :
    step { s with pending := e :: s.pending } = .next (after i s) := by
  simp [step, h, exec_eq]

@[simp] theorem runWords_nil (s : State) : runWords [] s = .next s := rfl

/-- Words that spell operations perform them. -/
theorem runWords_cons {e : EventWord} {i : Instr} (h : decode e = .ok i) (es : List EventWord)
    (s : State) : runWords (e :: es) s = runWords es (after i s) := by
  simp [runWords, step_present h]

/-- A list of words that spell the operations `is` performs them. -/
theorem runWords_spelled {es : List EventWord} {is : List Instr}
    (h : List.Forall₂ (fun e i => decode e = .ok i) es is) (s : State) :
    runWords es s = execAll is s := by
  induction h generalizing s with
  | nil => rfl
  | cons hd _ ih => rw [runWords_cons hd, ih, execAll_cons]

/-- The bus transaction of a cycle is the operation R90 decodes it to. -/
theorem decode_busEvent (c : Cycle) :
    decode c.busEvent = .ok (if c.busWe then decodeWrite c.busAddr c.busWdata else decodeRead c.busAddr) := by
  unfold Cycle.busEvent
  split
  · exact decode_busWrite _ _
  · exact decode_busRead _

/-- Every word of a cycle spells an event. -/
theorem Pins.events_spelled {p : Pins} {c : Cycle} {t : Timing} {es : List EventWord}
    (h : p.mayPerform c t es) {e : EventWord} (he : e ∈ es) : ∃ i, decode e = .ok i := by
  have hm := h.subset he
  unfold Pins.events at hm
  split at hm
  · exact ⟨_, (List.mem_singleton.1 hm) ▸ Laws.RoundTrip.reset rfl⟩
  · simp only [List.mem_append] at hm
    rcases hm with (hm | hm) | hm <;> split at hm <;>
      first
      | exact absurd hm List.not_mem_nil
      | obtain rfl := List.mem_singleton.1 hm
    · exact ⟨_, decode_busEvent c⟩
    · exact ⟨_, Laws.RoundTrip.frame _ rfl⟩
    · exact ⟨_, Laws.RoundTrip.tick _ rfl⟩

/-- Words that all spell events leave a state. -/
theorem runWords_completes {es : List EventWord} (h : ∀ e ∈ es, ∃ i, decode e = .ok i) (s : State) :
    ∃ t, runWords es s = .next t := by
  induction es generalizing s with
  | nil => exact ⟨s, rfl⟩
  | cons e es ih =>
    obtain ⟨i, hi⟩ := h e List.mem_cons_self
    rw [runWords_cons hi]
    exact ih (fun e' he' => h e' (List.mem_cons_of_mem _ he')) _

/-- What is emitted while words that spell the operations `is` are performed, and what is returned. -/
theorem execAll_out_reads (is : List Instr) (s : State) :
    ∃ t ws rs, execAll is s = .next t ∧ t.out = s.out ++ ws ∧ ws.length = is.countP Instr.isFrame ∧
      t.reads = s.reads ++ rs ∧ rs.length = is.countP Instr.isRead := by
  induction is generalizing s with
  | nil => exact ⟨s, [], [], rfl, by simp, rfl, by simp, rfl⟩
  | cons i is ih =>
    obtain ⟨t, ws, rs, ht, ho, hw, hr, hl⟩ := ih (after i s)
    obtain ⟨w, hio, hiw⟩ := after_out i s
    obtain ⟨r, hir, hil⟩ := after_reads i s
    refine ⟨t, w ++ ws, r ++ rs, (execAll_cons i is s).trans ht, by rw [ho, hio, List.append_assoc], ?_,
      by rw [hr, hir, List.append_assoc], ?_⟩ <;>
    simp [List.countP_cons, *, Nat.add_comm]

/-- A bus read decodes to a read (R90). -/
theorem isRead_decodeRead (a : Addr) :
    (decodeRead a).isRead = true ∧ (decodeRead a).isFrame = false := by
  unfold decodeRead
  repeat' split
  all_goals exact ⟨rfl, rfl⟩

/-- A bus write decodes to no read and no frame (R90). -/
theorem isRead_decodeWrite (a : Addr) (d : Word) :
    (decodeWrite a d).isRead = false ∧ (decodeWrite a d).isFrame = false := by
  unfold decodeWrite decodeCommand
  dsimp only
  repeat' split
  all_goals exact ⟨rfl, rfl⟩

/-- A cycle in reset is one `RESET` (R71). -/
theorem Pins.mayPerform_reset {p : Pins} {c : Cycle} {t : Timing} {es : List EventWord}
    (hr : c.rst = true) (h : p.mayPerform c t es) : es = [encode .reset] := by
  have := h
  rw [Pins.mayPerform, Pins.events, if_pos hr] at this
  exact List.perm_singleton.1 this

end Sys2Proof.Machine
end

