-- ==== Sys2Proof/Machine/Spelling.lean ====
section
/-! DEFINITION. The textual spelling of events (spec/30_encoding.md R101), as in the traces of
spec/95_test_vectors.md, and the 13 hexadecimal digits of an event word (R89). The generic forms
`WRREG a, v` and `RDREG a` are `decodeWrite a v` and `decodeRead a`. -/

namespace Sys2Proof.Machine

/-- One hexadecimal digit. -/
def hexDigit (n : Nat) : Char := "0123456789ABCDEF".toList.getD n '0'

/-- The low `digits` hexadecimal digits of `n`, most significant first. -/
def hexDigits : Nat → Nat → List Char
  | 0, _ => []
  | d + 1, n => hexDigits d (n / 16) ++ [hexDigit (n % 16)]

/-- A number as `0x` and `digits` hexadecimal digits. -/
def hex (digits n : Nat) : String := "0x" ++ String.ofList (hexDigits digits n)

/-- A stage by name (R101). -/
def Stage.text : Stage → String
  | .hpl => "HPL"
  | .lpl => "LPL"
  | .hpr => "HPR"
  | .lpr => "LPR"

/-- A coefficient index by name (R101). -/
def CoefIx.text : CoefIx → String
  | .b0 => "b0"
  | .b1 => "b1"
  | .b2 => "b2"
  | .a1 => "a1"
  | .a2 => "a2"

/-- The operands of an operation, as R101 writes them. -/
def operandText : Instr → String
  | .reset => ""
  | .frame w => " " ++ hex 8 w.toNat
  | .tick d => " " ++ hex 4 d.toNat
  | .nop => ""
  | .commit => ""
  | .clrhist => ""
  | .commitclr => ""
  | .arm => ""
  | .wrcoef s k v => " " ++ Stage.text s ++ ", " ++ CoefIx.text k ++ ", " ++ hex 8 v.toNat
  | .rdstatus => ""
  | .rdframecnt => ""
  | .rdcursor => ""
  | .rdcoef s k => " " ++ Stage.text s ++ ", " ++ CoefIx.text k
  | .rdslot i => " " ++ hex 4 i.toNat
  | .cmdrsvd c => " " ++ hex 1 c.toNat
  | .rdrsvd a => " " ++ hex 5 a.toNat
  | .wrrsvd a v => " " ++ hex 5 a.toNat ++ ", " ++ hex 8 v.toNat

/-- One line of a trace: the operation and its operands (R101). -/
def eventText (i : Instr) : String := i.mnemonic ++ operandText i

/-- The same with the value it returns or emits after `->` (R101). -/
def eventTextWith (i : Instr) (v : Word) : String := eventText i ++ " -> " ++ hex 8 v.toNat

/-- An event word as its 13 hexadecimal digits (R89). -/
def eventWordText (e : EventWord) : String := hex 13 e.toNat

end Sys2Proof.Machine
end

