-- ==== Sys2Proof/Tests/Slice0.lean ====
section
/-! SUPPORT. The model's own tests. Expected values are those of spec/95_test_vectors.md (named in each
comment) or hand calculation from the rules; then one witness for the hypotheses of every statement. -/

namespace Sys2Proof.Tests

open Sys2Proof Sys2Proof.Machine

/-- The state of an outcome that has one. -/
def nextOf (o : Host.Outcome State Fault Refusal) : Option State :=
  match o with
  | .next s => some s
  | .fault _ => none
  | .refused _ => none

/-- A reset block with `RING_AW` = 3, `CAP` = 8 (the vectors' ring). -/
def block8 : State := State.resetOf ⟨2⟩

/-- The same set in the two stages of a kind. -/
def bankOf (hp lp : CoefSet) : Bank := ⟨hp, lp, hp, lp⟩

/-- The identity stage (R141). -/
def idSet : CoefSet := ⟨0x40000000#32, 0#32, 0#32, 0#32, 0#32⟩

/-! ## Well-formedness: an ill-formed term for each check -/

theorem test_wf_cmdrsvd_low : (Instr.cmdrsvd 4#4).wf = false := by decide
theorem test_wf_cmdrsvd_ok : (Instr.cmdrsvd 5#4).wf = true := by decide
theorem test_wf_rdrsvd_status : (Instr.rdrsvd 0x00001#17).wf = false := by decide
theorem test_wf_rdrsvd_framecnt : (Instr.rdrsvd 0x00002#17).wf = false := by decide
theorem test_wf_rdrsvd_cursor : (Instr.rdrsvd 0x00003#17).wf = false := by decide
theorem test_wf_rdrsvd_coef : (Instr.rdrsvd 0x0003C#17).wf = false := by decide
theorem test_wf_rdrsvd_window : (Instr.rdrsvd 0x10000#17).wf = false := by decide
theorem test_wf_wrrsvd_ctrl : (Instr.wrrsvd 0x00000#17 0#32).wf = false := by decide
theorem test_wf_wrrsvd_coef : (Instr.wrrsvd 0x00020#17 0#32).wf = false := by decide

/-! ## Decoding: words written out in V9, V10, V11, V16, P1 and the operations' own rules -/

theorem test_decode_reset : decode 0xC000000000000#52 = .ok .reset := by decide
theorem test_decode_frame : decode 0x4000080004000#52 = .ok (.frame 0x80004000#32) := by decide
theorem test_decode_tick : decode 0x80000000000FF#52 = .ok (.tick 0x00FF#16) := by decide
theorem test_decode_nop : decode 0x2000000000000#52 = .ok .nop := by decide
theorem test_decode_commit : decode 0x2000000000001#52 = .ok .commit := by decide
theorem test_decode_clrhist : decode 0x20000FFFFFFF2#52 = .ok .clrhist := by decide
theorem test_decode_commitclr : decode 0x2000000000003#52 = .ok .commitclr := by decide
theorem test_decode_arm : decode 0x2000000000004#52 = .ok .arm := by decide
theorem test_decode_wrcoef :
    decode 0x2003B91F4CA2D#52 = .ok (.wrcoef .lpr .a1 0x91F4CA2D#32) := by decide
theorem test_decode_rdstatus : decode 0x0000100000000#52 = .ok .rdstatus := by decide
theorem test_decode_rdframecnt : decode 0x0000200000000#52 = .ok .rdframecnt := by decide
theorem test_decode_rdcursor : decode 0x0000300000000#52 = .ok .rdcursor := by decide
theorem test_decode_rdcoef : decode 0x0003C00000000#52 = .ok (.rdcoef .lpr .a2) := by decide
theorem test_decode_rdslot : decode 0x1FFFF00000000#52 = .ok (.rdslot 0xFFFF#16) := by decide
theorem test_decode_cmdrsvd : decode 0x200000000000F#52 = .ok (.cmdrsvd 15#4) := by decide
theorem test_decode_rdrsvd : decode 0x0FFFF00000000#52 = .ok (.rdrsvd 0x0FFFF#17) := by decide
theorem test_decode_wrrsvd :
    decode 0x20025FFFFFFFF#52 = .ok (.wrrsvd 0x00025#17 0xFFFFFFFF#32) := by decide

/-- The five words that spell no event (V16). -/
theorem test_decode_invalid :
    decode 0x4000100000000#52 = .invalid .addrOffBus ∧
    decode 0x8000000010000#52 = .invalid .tickDataHigh ∧
    decode 0xC000000000001#52 = .invalid .resetData ∧
    decode 0x0000100000001#52 = .invalid .readData ∧
    decode 0x6000000000000#52 = .invalid .weOffBus := by decide

/-- R124's example: `WRCOEF 0, 0, 0x3D78DFF3` is `0x200203D78DFF3`. -/
theorem test_encode_wrcoef : encode (.wrcoef .hpl .b0 0x3D78DFF3#32) = 0x200203D78DFF3#52 := by decide

/-- The last table row that a wrong decoder would give to a neighbour (V16: `k` = 5 of stage 0). -/
theorem test_table_row : tableMnemonic 0x20025FFFFFFFF#52 = some "WRRSVD" := by decide

/-! ## Formats and arithmetic -/

/-- S1. -/
theorem test_pack : pack (-32768) 32767 = 0x7FFF8000#32 ∧ unpack 0x80007FFF#32 = (32767, -32768) := by
  decide

/-- V-F1. -/
theorem test_toSig : trunc 32 (toSig 32767) = 0x0FFFE000#32 ∧ trunc 32 (toSig (-32768)) = 0xF0000000#32 := by
  decide

/-- V-F2: halves go up, the ends clamp. -/
theorem test_toS16 :
    toS16 (0x00001000#32).toInt = 1 ∧ toS16 (0xFFFFF000#32).toInt = 0 ∧
    toS16 (0xFFFFD000#32).toInt = -1 ∧ toS16 (0x0FFFF000#32).toInt = 32767 ∧
    toS16 (0xEFFFEFFF#32).toInt = -32768 := by decide

/-- V2b: rounding inside a stage, `s = -3`. -/
theorem test_biquad_rounds :
    (biquad ⟨0x00010000#32, 0#32, 0#32, 0#32, 0#32⟩ .zero (trunc 32 (toSig (-3)))).y
      = 0xFFFFFFFF#32 := by decide

/-- P4, event 10: the third frame of V4 saturates and reports it. -/
theorem test_biquad_saturates :
    biquad ⟨0x7FFFFFFF#32, 0#32, 0#32, 0x80000000#32, 0#32⟩
      ⟨0x0FFFE000#32, 0x0FFFE000#32, 0x5FFF4000#32, 0x1FFFC000#32⟩ 0x0FFFE000#32
      = ⟨0x7FFFFFFF#32, true, ⟨0x0FFFE000#32, 0x0FFFE000#32, 0x7FFFFFFF#32, 0x5FFF4000#32⟩⟩ := by
  decide

/-- R54: little-endian bytes. -/
theorem test_wordBytes : wordBytes 0x12345678#32 = [0x78#8, 0x56#8, 0x34#8, 0x12#8] := by decide

/-- R51, R55: word `a` at byte offset `4·a`; a misaligned or narrow access is not forwarded. -/
theorem test_wordAddrOf :
    wordAddrOf 0x80 4 = some 0x00020#17 ∧ wordAddrOf 0x82 4 = none ∧ wordAddrOf 0x80 2 = none := by
  decide

/-! ## One step each -/

/-- The 400 Hz highpass set of the table of `REBUILD` examples. -/
def set400 : CoefSet := ⟨0x3D78DFF3#32, 0x850E401B#32, 0x3D78DFF3#32, 0x8527D1F5#32, 0x3B0B51BF#32⟩

/-- The 1400 Hz lowpass set. -/
def set1400 : CoefSet := ⟨0x008E774C#32, 0x011CEE98#32, 0x008E774C#32, 0x91F4CA2D#32, 0x30451302#32⟩

/-- A block with that set committed. -/
def filtering : State := { block8 with coefA := bankOf set400 set1400 }

/-- V5, frame 1: the 400/1400 set, a stereo impulse; output and both left histories. -/
theorem test_frame_impulse :
    (nextOf (exec (.frame 0x80004000#32) filtering)).map
        (fun t => (t.out, t.hist.hpl, t.hist.lpl, t.frameCnt, t.isat))
      = some ([0xFEEE0089#32], ⟨0x08000000#32, 0#32, 0x07AF1BFE#32, 0#32⟩,
          ⟨0x07AF1BFE#32, 0#32, 0x00111AD9#32, 0#32⟩, 1#32, false) := by decide

/-- V5, frames 4 to 5: a step that uses all four history words of every stage. -/
theorem test_frame_tail :
    (nextOf (exec (.frame 0#32)
        { filtering with
          hist := ⟨⟨0#32, 0#32, 0xFF6EBFE0#32, 0xFF6829E3#32⟩,
            ⟨0xFF6EBFE0#32, 0xFF6829E3#32, 0x008402F8#32, 0x006B2667#32⟩,
            ⟨0#32, 0#32, 0x0122803D#32, 0x012FAC38#32⟩,
            ⟨0x0122803D#32, 0x012FAC38#32, 0xFEF7FA0F#32, 0xFF29B331#32⟩⟩ })).map (fun t => t.out)
      = some [0xF72E0469#32] := by decide

/-- V10 and the example of R130. -/
theorem test_rdstatus :
    (nextOf (exec .rdstatus { block8 with isat := true, rphase := .sampling })).map
      (fun t => (t.reads, t.isat)) = some ([6#32], true) := by decide

/-- R131: the counter is read, not changed. -/
theorem test_rdframecnt :
    (nextOf (exec .rdframecnt { block8 with frameCnt := 0x00007D00#32 })).map
      (fun t => (t.reads, t.frameCnt)) = some ([0x00007D00#32], 0x00007D00#32) := by decide

/-- V9: the shadow word is written, the active one is not. -/
theorem test_wrcoef :
    (nextOf (exec (.wrcoef .hpr .a1 0x8527D1F5#32) block8)).map
      (fun t => (t.coefS.get .hpr .a1, t.coefA.get .hpr .a1)) = some (0x8527D1F5#32, 0#32) := by decide

/-- P2, event 6: the read gives the shadow bank. -/
theorem test_rdcoef :
    (nextOf (exec (.rdcoef .hpl .b1)
      { block8 with coefS := block8.coefS.put .hpl .b1 0x40000000#32 })).map (fun t => t.reads)
      = some [0x40000000#32] := by decide

/-- V9: `COMMIT` publishes and keeps the history. -/
theorem test_commit :
    (nextOf (exec .commit { block8 with
        coefS := bankOf set400 set1400, hist := ⟨⟨1#32, 2#32, 3#32, 4#32⟩, .zero, .zero, .zero⟩ })).map
      (fun t => (t.coefA, t.hist.hpl)) = some (bankOf set400 set1400, ⟨1#32, 2#32, 3#32, 4#32⟩) := by
  decide

/-- P4, events 13 and 14: `CLRHIST` zeroes the history and leaves `ISAT`. -/
theorem test_clrhist :
    (nextOf (exec .clrhist { block8 with
        isat := true, hist := ⟨⟨1#32, 2#32, 3#32, 4#32⟩, .zero, .zero, ⟨5#32, 6#32, 7#32, 8#32⟩⟩ })).map
      (fun t => (t.hist, t.isat)) = some (.zero, true) := by decide

/-- P2, event 13. -/
theorem test_commitclr :
    (nextOf (exec .commitclr { block8 with
        coefS := bankOf idSet idSet, hist := ⟨.zero, ⟨1#32, 2#32, 3#32, 4#32⟩, .zero, .zero⟩ })).map
      (fun t => (t.coefA, t.hist)) = some (bankOf idSet idSet, .zero) := by decide

/-- V9: `NOP` and `CMDRSVD 9` do nothing. -/
theorem test_nop : nextOf (exec .nop filtering) = some filtering := by decide
theorem test_cmdrsvd : nextOf (exec (.cmdrsvd 9#4) filtering) = some filtering := by decide

/-- The 11-tick ring of S6. -/
def ring11 : State :=
  { block8 with
    rphase := .sampling, cursor := 11#32
    ring := [(0, ⟨0x0108#16, true⟩), (1, ⟨0x0109#16, true⟩), (2, ⟨0x010A#16, true⟩),
      (3, ⟨0x0103#16, true⟩), (4, ⟨0x0104#16, true⟩), (5, ⟨0x0105#16, true⟩),
      (6, ⟨0x0106#16, true⟩), (7, ⟨0x0107#16, true⟩)] }

/-- V10: `ARM` from `Idle`, and again in `Sampling`. -/
theorem test_arm : (nextOf (exec .arm block8)).map (fun t => t.rphase) = some .armed := by decide
theorem test_arm_sampling : nextOf (exec .arm ring11) = some ring11 := by decide

/-- The example of R162: `CURSOR` = 11, `TICK 0x010B` writes `RING[3]`. -/
theorem test_tick :
    (nextOf (exec (.tick 0x010B#16) ring11)).map
      (fun t => (t.cursor, Memory.read t.ring 3, Memory.read t.ring 4, t.ring.length))
      = some (12#32, some 0x010B#16, some 0x0104#16, 8) := by decide

/-- V12: the cursor wraps and the write goes to slot 7. -/
theorem test_tick_wrap :
    (nextOf (exec (.tick 0xBBBB#16) { ring11 with cursor := 0xFFFFFFFF#32 })).map
      (fun t => (t.cursor, Memory.read t.ring 7)) = some (0#32, some 0xBBBB#16) := by decide

/-- R163's example. -/
theorem test_rdcursor : (nextOf (exec .rdcursor ring11)).map (fun t => t.reads) = some [0x0000000B#32] := by
  decide

/-- V11: offsets 15 and 0xFFFF read slot 7. -/
theorem test_rdslot :
    (nextOf (exec (.rdslot 15#16) ring11)).map (fun t => t.reads) = some [0x00000107#32] ∧
    (nextOf (exec (.rdslot 0xFFFF#16) ring11)).map (fun t => t.reads) = some [0x00000107#32] := by decide

/-- V13: zero-extended, not sign-extended. -/
theorem test_rdslot_unsigned :
    (nextOf (exec (.rdslot 0#16)
      { block8 with cursor := 1#32, rphase := .sampling, ring := [(0, ⟨0xFFFF#16, true⟩)] })).map
      (fun t => t.reads) = some [0x0000FFFF#32] := by decide

/-- V17 and V14: after `RESET` everything reads its reset value. -/
theorem test_reset :
    (nextOf (exec .reset { ring11 with isat := true, frameCnt := 4#32 })).map
      (fun t => (t.rphase, t.cursor, t.isat, t.frameCnt)) = some (.idle, 0#32, false, 0#32) := by decide

/-- R262: no slot counts as written any more, and its code is not overwritten. -/
theorem test_reset_ring :
    (nextOf (exec .reset ring11)).map (fun t => (Memory.read t.ring 0, Memory.code t.ring 0))
      = some (none, some 0x0108#16) := by decide

/-- V16: a reserved read returns 0, a reserved write is ignored. -/
theorem test_rdrsvd : (nextOf (exec (.rdrsvd 0x00025#17) ring11)).map (fun t => t.reads) = some [0#32] := by
  decide
theorem test_wrrsvd : nextOf (exec (.wrrsvd 0x00001#17 0xFFFFFFFF#32) ring11) = some ring11 := by decide

/-- A step takes the word in front of the trace and performs it. -/
theorem test_step_fetch :
    (nextOf (step (ring11.withFetchWord 56 0x800000000010B))).map (fun t => (t.cursor, t.pending))
      = some (12#32, []) := by decide

/-- A word that spells no event is not performed. -/
theorem test_step_invalid : nextOf (step (ring11.withFetchWord 56 0x6000000000000)) = none := by decide

/-! ## Signals and the host's side -/

/-- A block at its pins that is able to keep two words: one result on its way, one word on `OUT`. -/
def blocked : Pins := ⟨ring11, [0x33334444#32], [0x11112222#32], [], 2⟩

/-- A cycle that presents a bus read of the cursor, a frame and a tick; `OUT`'s consumer as said. -/
def busy (rst outReady : Bool) : Cycle :=
  ⟨rst, true, false, 0x00003#17, 7#32, true, 0x12345678#32, outReady, true, 0x00FF#16⟩

/-- Nothing is held back: a word is accepted, one result comes to `OUT`, data are shown. -/
def prompt : Timing := ⟨true, 1, true, true, true, true⟩

/-- R71: in a reset cycle nothing but the `RESET` is an event, and both handshakes are held at 0; R260: the
result on its way is lost. -/
theorem test_cycle_reset :
    blocked.events (busy true true) prompt = [0xC000000000000#52] ∧
    (blocked.clock (busy true true) prompt [0xC000000000000#52]).map
      (fun o => (o.inReady, o.outValid, o.next.flight)) = some (false, false, []) := by decide

/-- R71: a bus read, a frame and a tick in one cycle are three events; read data are ignored. -/
theorem test_cycle_three :
    blocked.events (busy false true) prompt
      = [0x0000300000000#52, 0x4000012345678#52, 0x80000000000FF#52] := by decide

/-- R68: with `OUT` blocked the block takes no word, and none is dropped. -/
theorem test_cycle_blocked :
    blocked.events (busy false false) prompt = [0x0000300000000#52, 0x80000000000FF#52] := by decide

/-- R71: the oldest word is handed over, the next result comes to `OUT`, and the cursor read before the tick
shows its data. -/
theorem test_clock :
    (blocked.clock (busy false true) prompt
        [0x0000300000000#52, 0x4000012345678#52, 0x80000000000FF#52]).map
      (fun o => (o.outData, o.busRdata, o.next.waiting, o.next.flight.length))
      = some (some 0x11112222#32, some 11#32, [0x33334444#32], 1) := by decide

/-- A `WINDOW 2` on the ring of S6 returns the cursor and the two newest samples. -/
theorem test_windowRun :
    (windowRun 2 [[], [], []] ring11).map Prod.snd = some [11#32, 0x0109#32, 0x010A#32] := by decide

/-- V-F3: a half goes away from zero, the ends saturate. -/
theorem test_q30 :
    q30 (1 : Rat) = 0x40000000#32 ∧ q30 (2 : Rat) = 0x7FFFFFFF#32 ∧ q30 (-2 : Rat) = 0x80000000#32 ∧
    q30 (-1 / 2147483648 : Rat) = 0xFFFFFFFF#32 ∧ q30 (1 / 2147483648 : Rat) = 1#32 := by decide +kernel

/-- The 400 Hz row of the coefficient table, from the twelve-digit `cos w0` and `alpha` beside it. -/
theorem test_highpass400 :
    (highpassSet (998376489895 / 1000000000000 : Rat) (402764473715 / 10000000000000)).quantise = set400 := by
  decide +kernel

/-- The 1400 Hz row, likewise. -/
theorem test_lowpass1400 :
    (lowpassSet (980172487849 / 1000000000000 : Rat) (140110481522 / 1000000000000)).quantise = set1400 := by
  decide +kernel

/-- S5, second row: the margin is forced. -/
theorem test_mapToCutoffs :
    mapToCutoffs (K := Rat) ⟨4095, 33 / 10, 510, 500, 10000, 10500, 20, 20000, 100, 20⟩ 4095 0 = ⟨1010, 1110⟩ := by
  decide +kernel

/-- S9. -/
theorem test_chooseBackoff :
    chooseBackoff (9 / 10 : Rat) (7 / 10) (95 / 100) = .longSleep ∧
    chooseBackoff (9 / 10 : Rat) (7 / 10) (9 / 10) = .mediumSleep ∧
    chooseBackoff (9 / 10 : Rat) (7 / 10) (7 / 10) = .shortSleep ∧
    loadRatio (10 : Rat) (23 / 2) 9 = some 1 := by decide +kernel

/-- S4: 9 Hz of change is no rebuild, 21 Hz is one. -/
theorem test_exceeds : exceeds (20 : Rat) 391 400 = false ∧ exceeds (20 : Rat) 421 400 = true := by decide +kernel

/-- V12: `WINDOW 3` at `c = 1` reads offsets 0xFFFE, 0xFFFF, 0. -/
theorem test_window :
    windowReads 1#32 3 = [.rdslot 0xFFFE#16, .rdslot 0xFFFF#16, .rdslot 0#16] := by decide

/-- P1: the events of a `REBUILD` end with the commit. -/
theorem test_rebuild :
    (rebuildEvents false set400 set1400).length = 21 ∧
    (rebuildEvents true set400 set1400)[20]? = some .commitclr := by decide

/-- V16's line and its event word, in the spelling of R101. -/
theorem test_spelling :
    eventText (.wrrsvd 0x00025#17 0xFFFFFFFF#32) = "WRRSVD 0x00025, 0xFFFFFFFF" ∧
    eventWordText (encode (.wrrsvd 0x00025#17 0xFFFFFFFF#32)) = "0x20025FFFFFFFF" := by decide +kernel

/-! ## Witnesses: for every statement with hypotheses, data that meet all of them -/

/-- `DecodeInvertsEncode`: the reserved operations at the ends of their ranges; the others always are. -/
theorem witness_DecodeInvertsEncode :
    (Instr.cmdrsvd 5#4).wf = true ∧ (Instr.cmdrsvd 15#4).wf = true ∧
    (Instr.rdrsvd 0x00000#17).wf = true ∧ (Instr.rdrsvd 0x0001F#17).wf = true ∧
    (Instr.rdrsvd 0x0FFFF#17).wf = true ∧ (Instr.wrrsvd 0x00001#17 1#32).wf = true ∧
    (Instr.wrrsvd 0x1FFFF#17 1#32).wf = true ∧ (Instr.frame 0xFFFFFFFF#32).wf = true := by decide

/-- `EncodeInvertsDecode`: a word that comes back, and a `CTRL` write that loses ignored bits (V9). -/
theorem witness_EncodeInvertsDecode :
    (decode 0x200203D78DFF3#52 = .ok (.wrcoef .hpl .b0 0x3D78DFF3#32) ∧
      encode (.wrcoef .hpl .b0 0x3D78DFF3#32) = 0x200203D78DFF3#52) ∧
    (decode 0x20000FFFFFFF2#52 = .ok .clrhist ∧ encode .clrhist = 0x2000000000002#52) := by decide

/-- `BusTransactionDecode`: the premises of each clause at the ends of its range. -/
theorem witness_BusTransactionDecode :
    ((0xFFFFFFF5#32).extractLsb' 0 4).toNat = 5 ∧
    ((0x00020#17).extractLsb' 5 12 = 0x001#12 ∧ ((0x00020#17).extractLsb' 0 3).toNat ≤ 4) ∧
    ((0x0003C#17).extractLsb' 5 12 = 0x001#12 ∧ ((0x0003C#17).extractLsb' 0 3).toNat ≤ 4) ∧
    ((0x0003D#17) ≠ 0x00000#17 ∧
      ¬((0x0003D#17).extractLsb' 5 12 = 0x001#12 ∧ ((0x0003D#17).extractLsb' 0 3).toNat ≤ 4)) ∧
    (0x10000#17).extractLsb' 16 1 = 1#1 ∧ (0x1FFFF#17).extractLsb' 16 1 = 1#1 ∧
    ((0x00004#17) ≠ 0x00003#17 ∧ (0x00004#17).extractLsb' 5 12 ≠ 0x001#12 ∧
      (0x00004#17).extractLsb' 16 1 ≠ 1#1) := by decide

/-- `StepPerformsNextEvent`: a trace with an event in front, one with a word that spells none, an empty
one, and a table word that decodes. -/
theorem witness_StepPerformsNextEvent :
    (ring11.withFetchWord 56 0x800000000010B).pending = 0x800000000010B#52 :: [] ∧
    decode 0x800000000010B#52 = .ok (.tick 0x010B#16) ∧
    (ring11.withFetchWord 56 0x6000000000000).pending = 0x6000000000000#52 :: [] ∧
    decode 0x6000000000000#52 = .invalid .weOffBus ∧ ring11.pending = [] ∧
    decodeTableWord 56 0x800000000010B = some (.tick 0x010B#16) := by decide

/-- `PackUnpackRoundTrip`, `InputConversionIsExact`: both ends of the sample range. -/
theorem witness_sample_range :
    (-(2 ^ 15) ≤ (-32768 : Int) ∧ (-32768 : Int) ≤ 2 ^ 15 - 1) ∧
    (-(2 ^ 15) ≤ (32767 : Int) ∧ (32767 : Int) ≤ 2 ^ 15 - 1) := by decide

/-- `OutputConversionRoundsAndClamps`: both ends of the signal range, and where the clamp begins. -/
theorem witness_OutputConversionRoundsAndClamps :
    (-(2 ^ 31) ≤ (-(2 ^ 28) : Int) ∧ (-(2 ^ 28) : Int) ≤ 2 ^ 31 - 1) ∧
    (-(2 ^ 31) ≤ (2 ^ 28 - 2 ^ 12 : Int) ∧ (2 ^ 28 - 2 ^ 12 : Int) ≤ 2 ^ 31 - 1) := by decide

/-- `StageArithmeticLaws`: the least shift, and two different values in order. -/
theorem witness_StageArithmeticLaws :
    1 ≤ (1 : Nat) ∧ (-3 : Int) ≤ 2 ∧ (∃ m : Int, (-2 : Int) = (2 * m + 1) * 2 ^ (2 - 1)) ∧
    rhu 2 2 ≠ -rhu (-2) 2 :=
  ⟨by decide, by decide, ⟨-1, by decide⟩, by decide⟩

/-- `RoundingErrorsAreLocal`: a stage that rounds and does not saturate, and a value that is rounded. -/
theorem witness_RoundingErrorsAreLocal :
    (biquad ⟨0x00010000#32, 0#32, 0#32, 0#32, 0#32⟩ .zero (trunc 32 (toSig (-3)))).saturated = false ∧
    (-32768 * 2 ^ 13 - 2 ^ 12 ≤ (-32768 * 2 ^ 13 - 2 ^ 12 : Int) ∧
      (-32768 * 2 ^ 13 - 2 ^ 12 : Int) < 32767 * 2 ^ 13 + 2 ^ 12) := by decide

/-- A block with a different right lane: the left lanes of `filtering` and of this one agree. -/
def otherRight : State :=
  { filtering with coefA := ⟨set400, set1400, idSet, idSet⟩, hist := ⟨.zero, .zero, ⟨1#32, 2#32, 3#32, 4#32⟩, .zero⟩ }

/-- `LanesAreIndependent`: two states and two words with equal left and different right lanes, and the
premises of the right clause between a state and the one with the lanes' left half changed. -/
theorem witness_LanesAreIndependent :
    (filtering.coefA.hpl = otherRight.coefA.hpl ∧ filtering.coefA.lpl = otherRight.coefA.lpl ∧
      filtering.hist.hpl = otherRight.hist.hpl ∧ filtering.hist.lpl = otherRight.hist.lpl ∧
      leftField 0x80004000#32 = leftField 0x12344000#32 ∧
      filtering.coefA.hpr ≠ otherRight.coefA.hpr) ∧
    (filtering.coefA.hpr = ({ filtering with coefA.hpl := idSet }).coefA.hpr ∧
      rightField 0x80004000#32 = rightField 0x80001111#32) := by decide

/-- `SaturationFlagIsSticky`: a frame with a stage result that does not fit. -/
theorem witness_SaturationFlagIsSticky :
    State.frameOverflows
      { block8 with
        coefA.hpl := ⟨0x7FFFFFFF#32, 0#32, 0#32, 0x80000000#32, 0#32⟩
        hist.hpl := ⟨0x0FFFE000#32, 0x0FFFE000#32, 0x5FFF4000#32, 0x1FFFC000#32⟩ }
      0x00007FFF#32 := .inl (.inr (by decide))

/-- `SilenceStaysSilent`, `FramesBeforeFirstCommit`: a zero history under real coefficients, and zero
coefficients. -/
theorem witness_silent :
    filtering.hist = ⟨⟨0, 0, 0, 0⟩, ⟨0, 0, 0, 0⟩, ⟨0, 0, 0, 0⟩, ⟨0, 0, 0, 0⟩⟩ ∧
    block8.coefA = .zero := by decide

/-- `IdentitySetPassesFrames`: the identity set in all four stages, over a history that is not zero. -/
theorem witness_IdentitySetPassesFrames :
    ∀ st, ({ otherRight with coefA := bankOf idSet idSet }).coefA.stage st
      = ⟨0x40000000#32, 0#32, 0#32, 0#32, 0#32⟩ := by
  intro st; cases st <;> decide

/-- A list of operations without `RESET`, with frames and ticks in it. -/
def mixed : List Instr := [.tick 1#16, .frame 0x80004000#32, .wrcoef .hpl .b0 1#32, .rdcursor, .tick 2#16]

/-- `FrameCounterCountsFrames`, `InterleavingIsIrrelevant`, `CoefficientWritesWaitForCommit`,
`WindowIsWholeWithinSlack`: the list and a state with the ring enabled. -/
theorem witness_mixed :
    (∀ i ∈ mixed, i ≠ .commit ∧ i ≠ .commitclr ∧ i ≠ .reset) ∧ frameCount mixed = 1 ∧
    tickCount mixed = 2 ∧ ring11.rphase ≠ .idle := by decide

/-- `WrcoefWritesOneShadowWord`: a neighbour that keeps its value. -/
theorem witness_WrcoefWritesOneShadowWord : (Stage.hpl, CoefIx.b1) ≠ (Stage.hpl, CoefIx.b0) := by decide

/-- `AnyLoadOrderGivesSameSet`: the twenty writes in the reverse order, with a frame in front. -/
theorem witness_AnyLoadOrderGivesSameSet :
    ((.frame 1#32 :: (loadSet set400 set1400).reverse).filter fun i => !i.isFrame).Perm
      (loadSet set400 set1400) := by decide

/-- `ReservedAccessesAreInert`: both ends of the reserved ranges. -/
theorem witness_ReservedAccessesAreInert :
    readReserved 0x00000#17 = true ∧ readReserved 0x0003F#17 = true ∧ readReserved 0x0FFFF#17 = true ∧
    writeReserved 0x00001#17 = true ∧ writeReserved 0x0003F#17 = true ∧
    writeReserved 0x1FFFF#17 = true := by decide

/-- `ReadsAndRepeatsAreHarmless`, `SlotReadsZeroExtended`: a written slot, read through two offsets. -/
theorem witness_written_slot :
    (Memory.read ring11.ring (readSlot ring11.ringAw 15#16)).isSome ∧
    Memory.read ring11.ring ((0xFFFF#16).toNat % ring11.cap) = some 0x0107#16 ∧
    (0xFFFF#16).toNat % ring11.cap = (15#16).toNat % ring11.cap := by decide

/-- `ArmMovesIdleToArmed`, `TickStoresAndAdvances`: both phases of the clauses. -/
theorem witness_phases : block8.rphase = .idle ∧ ring11.rphase ≠ .idle := by decide

/-- `UnwrittenSlotsReadSomeCode`: a slot not written after reset. -/
theorem witness_UnwrittenSlotsReadSomeCode :
    Memory.read block8.ring ((0xFFFF#16).toNat % block8.cap) = none := by decide

/-- `CursorWrapsThroughSlotZero`: the cursor at its last value. -/
theorem witness_CursorWrapsThroughSlotZero :
    ({ ring11 with cursor := 0xFFFFFFFF#32 }).rphase ≠ .idle ∧
    ({ ring11 with cursor := 0xFFFFFFFF#32 }).cursor = 0xFFFFFFFF#32 := by decide

/-- A tick too early, the enable, then 11 ticks with a read among them. -/
def fill11 : List Instr := [.tick 9#16, .arm, .tick 0#16, .rdcursor] ++ List.replicate 10 (.tick 1#16)

/-- `RingHoldsLastSamples`: more samples than slots (`n` = 3 is the oldest held), and fewer. -/
theorem witness_RingHoldsLastSamples :
    (∀ i ∈ fill11, i ≠ .reset) ∧ (writtenCodes false fill11).length = 11 ∧ 11 < 2 ^ 32 ∧
    (11 ≤ 3 + block8.cap ∧ 3 < 11) ∧ block8.cap ≤ 11 ∧
    (∀ i ∈ mixed, i ≠ .reset) ∧ ((writtenCodes false mixed).length ≤ 7 ∧ 7 < block8.cap) := by decide

/-- `CursorCountsWritingTicks`: the two ticks of the list write in an enabled ring, none in `Idle`. -/
theorem witness_CursorCountsWritingTicks :
    (writtenCodes true mixed).length = 2 ∧ (writtenCodes false mixed).length = 0 := by decide

/-- `WindowIsWholeWithinSlack`: the longest window that two ticks leave whole, at its oldest entry. -/
theorem witness_WindowIsWholeWithinSlack :
    1 ≤ 6 ∧ 6 ≤ ring11.cap ∧ 0 < 6 ∧ (∀ i ∈ mixed, i ≠ .reset) ∧ tickCount mixed ≤ ring11.cap - 6 ∧
    Memory.read ring11.ring (readSlot ring11.ringAw (windowOffset ring11.cursor 6 0))
      = some 0x0105#16 := by decide

/-- `WindowBelowCursorIsWritten`, `StepKeepsInvariant`: the invariant in a sampling block, a window of the
whole ring, and a step from it. -/
theorem witness_WindowBelowCursorIsWritten :
    ring11.Inv ∧ 8 ≤ ring11.cap ∧ 8 ≤ ring11.cursor.toNat ∧ 7 < 8 := by decide

theorem witness_StepKeepsInvariant :
    (ring11.withFetchWord 56 0xC000000000000).Inv ∧
    (nextOf (step (ring11.withFetchWord 56 0xC000000000000))).isSome := by decide

/-- `PhaseOnlyMovesForward`: both moves happen. -/
theorem witness_PhaseOnlyMovesForward :
    (nextOf (exec .arm block8)).map (fun t => t.rphase) = some .armed ∧
    (nextOf (exec (.tick 0#16) { block8 with rphase := .armed })).map (fun t => t.rphase)
      = some .sampling := by decide

/-- `DatapathsAreIndependent`, `FilterAndRingEventsCommute`: operations of both kinds, states that agree
on one side alone. -/
theorem witness_DatapathsAreIndependent :
    (Instr.frame 1#32).isFilter = true ∧ (Instr.tick 1#16).isRing = true ∧
    State.sameFilter block8 ring11 ∧ block8.out = ring11.out ∧ block8.reads = ring11.reads ∧
    block8 ≠ ring11 ∧ State.sameRing block8 filtering ∧ block8.freeCtr = filtering.freeCtr ∧
    block8 ≠ filtering := by decide

/-- `SpelledTraceIsNeverRefused`: a trace of one good word. -/
theorem witness_SpelledTraceIsNeverRefused :
    ({ block8 with pending := [0x2000000000004#52] }).traceSpellsEvents := by
  intro e he
  exact ⟨.arm, by simp only [List.mem_singleton] at he; subst he; decide⟩

/-- `CycleEventsSpellEvents`, `PinsDropNoWordOutsideReset`: a reset cycle, one with all three events in
another order, and one with `OUT` blocked and no room. -/
theorem witness_cycles :
    blocked.mayPerform (busy true true) prompt [0xC000000000000#52] ∧
    blocked.mayPerform (busy false true) prompt
      [0x80000000000FF#52, 0x0000300000000#52, 0x4000012345678#52] ∧
    blocked.inReady (busy false true) prompt = true ∧
    ((busy false false).outReady = false ∧ blocked.depth ≤ blocked.held) ∧
    blocked.held ≤ blocked.depth ∧ blocked.unanswered = [] ∧ prompt.responds = true := by decide

/-- `WindowReturnsSamplesAtCursorRead`: a window of six with two ticks inside its reading, its oldest entry
and its newest. -/
theorem witness_WindowReturnsSamplesAtCursorRead :
    let ds : List Code := [0x0105#16, 0x0106#16, 0x0107#16, 0x0108#16, 0x0109#16, 0x010A#16]
    let gaps : List (List Instr) := [mixed, [], [.frame 1#32], [], [], []]
    1 ≤ ds.length ∧ ds.length ≤ ring11.cap ∧ gaps.length = ds.length ∧
    (∀ i ∈ gaps.flatten, i ≠ .reset) ∧ tickCount gaps.flatten ≤ ring11.cap - ds.length ∧
    nextOf (execAll [.nop] ring11) = some ring11 ∧
    (∀ j < 6, Memory.read ring11.ring (readSlot ring11.ringAw (windowOffset ring11.cursor 6 j)) = ds[j]?) := by
  decide

/-- `CoefficientWritesWaitForCommit`, `RdcoefReturnsShadowWord`: operations without a commit, a `RESET` or
a coefficient write. -/
theorem witness_after_commit :
    ∀ i ∈ ([.frame 1#32, .tick 1#16, .rdstatus] : List Instr),
      (i ≠ .commit ∧ i ≠ .commitclr ∧ i ≠ .reset) ∧ i.mnemonic ≠ "WRCOEF" := by decide

/-- `ResetEstablishesResetValues`: an operation other than `RESET` in a state with everything set. -/
theorem witness_ResetEstablishesResetValues :
    Instr.frame 1#32 ≠ .reset ∧ ({ ring11 with isat := true }).isat = true ∧ ring11.rphase ≠ .idle := by
  decide

/-- `QuantiserIsNearest`: both ends of the coefficient format. -/
theorem witness_QuantiserIsNearest :
    (-2 ≤ (-2 : ℝ) ∧ (-2 : ℝ) ≤ 2 - 1 / 2 ^ 30) ∧
    (-2 ≤ (2 - 1 / 2 ^ 30 : ℝ) ∧ (2 - 1 / 2 ^ 30 : ℝ) ≤ 2 - 1 / 2 ^ 30) := by norm_num

/-- `ConstructedCoefficientsFit`: the cutoff and the sample rate of the 1400 Hz row. -/
theorem witness_ConstructedCoefficientsFit : 0 < (1400 : ℝ) ∧ (1400 : ℝ) < 44100 / 2 := by norm_num

end Sys2Proof.Tests
end

section
/-! The step on a trace: one equation per case of the next event word, and what `withFetchWord` puts
in front of the trace (spec/00_scope.md R6, R14; spec/30_encoding.md R89). -/

namespace Sys2Proof.Machine

/-- R208: with no event pending the block stays as it is. -/
theorem step_of_pending_nil {s : State} (hp : s.pending = []) : step s = .next s := by
  simp only [step, hp]

/-- R6: the next event is taken off the trace and performed, whole. -/
theorem step_of_decode_ok {s : State} {e : EventWord} {rest : List EventWord} {i : Instr}
    (hp : s.pending = e :: rest) (hd : decode e = .ok i) :
    step s = exec i { s with pending := rest } := by
  simp only [step, hp, hd]

/-- R89: a word that spells no event is refused, with the decoder's reason. -/
theorem step_of_decode_invalid {s : State} {e : EventWord} {rest : List EventWord} {r : Reject}
    (hp : s.pending = e :: rest) (hd : decode e = .invalid r) :
    step s = .refused (.invalidEventWord r) := by
  simp only [step, hp, hd]

/-- A numbered word is read as an operation exactly when it fits an event word and that word spells it. -/
theorem decodeTableWord_eq_some_iff {nbits w : Nat} {i : Instr} :
    decodeTableWord nbits w = some i ↔ ∃ e, tableWord nbits w = some e ∧ decode e = .ok i := by
  unfold decodeTableWord
  cases tableWord nbits w with
  | none => simp
  | some e => cases hd : decode e <;> simp [hd]

/-- A number that fits an event word is put in front of the trace as that word. -/
theorem withFetchWord_pending {nbits w : Nat} {e : EventWord} (h : tableWord nbits w = some e)
    (s : State) : (s.withFetchWord nbits w).pending = e :: s.pending := by
  simp only [State.withFetchWord, h, Option.getD_some]

/-- The step performs the word that `withFetchWord` put in front, on the state it was put in front of. -/
theorem step_withFetchWord {nbits w : Nat} {i : Instr} (h : decodeTableWord nbits w = some i)
    (s : State) : step (s.withFetchWord nbits w) = exec i s := by
  obtain ⟨e, he, hd⟩ := decodeTableWord_eq_some_iff.mp h
  exact step_of_decode_ok (withFetchWord_pending he s) hd

/-- Settles O7, case by case on the next word of the trace. -/
theorem stepPerformsNextEvent : Obligations.StepPerformsNextEvent :=
  ⟨fun _ _ _ _ => step_of_decode_ok, fun _ _ _ _ => step_of_decode_invalid,
    fun _ => step_of_pending_nil, fun s _ _ _ h => step_withFetchWord h s⟩

end Sys2Proof.Machine
end

section
/-! The elements of the state: what one operation does to the ring side, the histories, `ISAT` and
`FRAMECNT`, and from it the invariant of the block (spec/10_state.md R24 to R27, R33; spec/20_memory.md
R61; spec/41_ring.md R160). -/

namespace Sys2Proof.Machine

/-! ## What one operation does to each element -/

/-- Everything an operation can do to the ring side: `RESET`, the enabling `ARM` and the writing `TICK`
change it, all else leaves it alone (R69). -/
theorem after_ring_cases (i : Instr) (s : State) :
    s.sameRing (after i s) ∨
    (i = .reset ∧ after i s = s.doReset) ∨
    (i = .arm ∧ s.rphase = .idle ∧ after i s = { s with rphase := .armed }) ∨
    (∃ d, i = .tick d ∧ s.rphase ≠ .idle ∧ after i s = s.storeCode d) := by
  cases i
  case reset => exact .inr (.inl ⟨rfl, rfl⟩)
  case arm =>
    by_cases hp : s.rphase = .idle
    · exact .inr (.inr (.inl ⟨rfl, hp, armRing_idle hp⟩))
    · exact .inl (by simp [State.sameRing, after, armRing_enabled hp])
  case tick d =>
    by_cases hp : s.rphase = .idle
    · exact .inl (by simp [State.sameRing, after, timerFire_idle hp])
    · exact .inr (.inr (.inr ⟨d, rfl, hp, timerFire_enabled hp d⟩))
  all_goals exact .inl (by simp [State.sameRing, after])

/-- The histories are kept, cleared, or those of a processed frame (R24, R127, R260). -/
theorem after_hist_cases (i : Instr) (s : State) :
    (after i s).hist = s.hist ∨ (after i s).hist = .zero ∨
      ∃ w, (after i s).hist = (s.processFrame w).hist := by
  cases i
  case frame w => exact .inr (.inr ⟨w, rfl⟩)
  case reset | clrhist | commitclr => exact .inr (.inl rfl)
  all_goals exact .inl (by simp [after])

/-- R25: only `FRAME` and `RESET` touch `ISAT`. -/
theorem after_isat_of_not_frame {i : Instr} (hr : i ≠ .reset) (hf : ∀ w, i ≠ .frame w) (s : State) :
    (after i s).isat = s.isat := by
  cases i
  case reset => exact absurd rfl hr
  case frame w => exact absurd rfl (hf w)
  all_goals simp [after]

/-- R26: a `FRAME` adds one to `FRAMECNT`, and every other operation but `RESET` leaves it. -/
theorem after_frameCnt {i : Instr} (hr : i ≠ .reset) (s : State) :
    (after i s).frameCnt = s.frameCnt + if i.isFrame then 1#32 else 0#32 := by
  cases i
  case reset => exact absurd rfl hr
  all_goals simp [after, Instr.isFrame]

/-! ## `ISAT`, `FRAMECNT` and the phase -/

/-- R25: a frame leaves `ISAT` set exactly when it was set or a stage result did not fit. -/
theorem processFrame_isat_iff (s : State) (w : Word) :
    (s.processFrame w).isat = true ↔ s.isat = true ∨ s.frameOverflows w := by
  simp only [State.processFrame_isat, isatAfter, Bool.or_eq_true, State.frameOverflows,
    ← biquad_saturated_iff, or_assoc]
  rfl

/-- Settles O17, by the cases `RESET`, `FRAME` and every other operation. -/
theorem saturationFlagIsSticky : Obligations.SaturationFlagIsSticky := by
  intro i s
  refine ⟨after i s, exec_eq i s, ?_⟩
  by_cases hr : i = .reset
  · subst hr
    simp [after]
  by_cases hf : ∃ w, i = .frame w
  · obtain ⟨w, rfl⟩ := hf
    simpa [-State.processFrame_isat, after] using processFrame_isat_iff s w
  · push Not at hf
    simp [after_isat_of_not_frame hr hf, hr, hf]

/-- R26 over a list of operations: `FRAMECNT` rises by the frames of the list, modulo `2^32`. -/
theorem execAll_frameCnt {is : List Instr} (h : ∀ i ∈ is, i ≠ .reset) (s : State) :
    ∃ t, execAll is s = .next t ∧ t.frameCnt = s.frameCnt + BitVec.ofNat 32 (frameCount is) := by
  induction is generalizing s with
  | nil => exact ⟨s, rfl, by simp [frameCount]⟩
  | cons i rest ih =>
    obtain ⟨hi, hrest⟩ := List.forall_mem_cons.1 h
    obtain ⟨t, ht, hcnt⟩ := ih hrest (after i s)
    refine ⟨t, (execAll_cons i rest s).trans ht, ?_⟩
    rw [hcnt, after_frameCnt hi, frameCount, frameCount, List.countP_cons]
    cases i.isFrame
    · simp
    · simp [BitVec.ofNat_add, BitVec.add_assoc, BitVec.add_comm 1#32]

/-- Settles O21, by induction on the list after the `RESET`. -/
theorem frameCounterCountsFrames : Obligations.FrameCounterCountsFrames := by
  refine ⟨fun is s h => ?_, fun is s h => execAll_frameCnt h s⟩
  obtain ⟨t, ht, hcnt⟩ := execAll_frameCnt h s.doReset
  exact ⟨t, ht, by simpa using hcnt⟩

/-- Settles O45, from the cases of what an operation does to the ring side. -/
theorem phaseOnlyMovesForward : Obligations.PhaseOnlyMovesForward := by
  refine ⟨⟨rfl, rfl, rfl, fun p => by cases p <;> decide⟩, fun i s => ?_⟩
  refine ⟨after i s, exec_eq i s, by rintro rfl; rfl, fun hr => ?_⟩
  obtain ⟨hp, -⟩ | ⟨rfl, -⟩ | ⟨rfl, hp, ht⟩ | ⟨d, rfl, hp, ht⟩ := after_ring_cases i s
  · simp [hp]
  · exact absurd rfl hr
  · simp [ht, hp]
  · have hnew : (after (.tick d) s).rphase = .sampling := by rw [ht]; rfl
    cases hph : s.rphase with
    | idle => exact absurd hph hp
    | armed | sampling => simp [hnew]

/-! ## The cascade -/

theorem zero_cascaded : Histories.zero.cascaded := by decide

/-- R24: the output a highpass stage shifts in is the input its lowpass stage shifts in, and the word each
moves back was shared before. -/
theorem processFrame_cascaded {s : State} (h : s.hist.cascaded) (w : Word) :
    (s.processFrame w).hist.cascaded := by
  obtain ⟨hl, -, hr, -⟩ := h
  exact ⟨rfl, hl, rfl, hr⟩

theorem after_cascaded {s : State} (h : s.hist.cascaded) (i : Instr) :
    (after i s).hist.cascaded := by
  obtain e | e | ⟨w, e⟩ := after_hist_cases i s <;> rw [e]
  · exact h
  · exact zero_cascaded
  · exact processFrame_cascaded h w

/-- Settles O54: the reset histories are cascaded and every operation keeps them so. -/
theorem cascadeSharesHistory : Obligations.CascadeSharesHistory := by
  intro aw is
  have hrun := execAll_eq is (State.resetOf aw)
  exact ⟨_, hrun, execAll_keeps (P := fun u => u.hist.cascaded) hrun zero_cascaded
    fun i _ _ hu => after_cascaded hu i⟩

/-! ## The invariant at reset -/

@[simp] theorem Bank.get_zero (st : Stage) (k : CoefIx) : Bank.zero.get st k = 0#32 := by
  cases st <;> cases k <;> rfl

@[simp] theorem Histories.stage_zero (st : Stage) :
    Histories.zero.stage st = ⟨0#32, 0#32, 0#32, 0#32⟩ := by
  cases st <;> rfl

/-- Settles O51: each field of `State.reset` is the one R33 names. -/
theorem resetStateHoldsResetValues : Obligations.ResetStateHoldsResetValues :=
  ⟨fun st k => ⟨Bank.get_zero st k, Bank.get_zero st k⟩, Histories.stage_zero, rfl, rfl, rfl, rfl,
    fun _ => rfl⟩

/-- With the cursor at zero there is no slot below it. -/
theorem writtenBelowCursor_of_cursor_zero {s : State} (h : s.cursor = 0#32) :
    s.writtenBelowCursor := by
  intro n _ hn
  simp [h] at hn

theorem resetOf_inv (aw : RingAw) : (State.resetOf aw).Inv :=
  ⟨List.Pairwise.nil, List.forall_mem_nil _, zero_cascaded, writtenBelowCursor_of_cursor_zero rfl,
    fun _ => ⟨rfl, List.forall_mem_nil _⟩⟩

/-- Settles O52: the reset state lists no slot and its cursor is zero. -/
theorem resetMeetsInvariant : Obligations.ResetMeetsInvariant :=
  ⟨resetOf_inv _, resetOf_inv⟩

/-! ## The invariant across a step -/

/-- The invariant speaks of the ring side and of the cascade alone. -/
theorem inv_of_sameRing {s t : State} (h : s.Inv) (hst : s.sameRing t)
    (hcasc : s.hist.cascaded → t.hist.cascaded) : t.Inv := by
  obtain ⟨hwf, hrange, hc, hbelow, hquiet⟩ := h
  obtain ⟨hp, hcur, hring, haw⟩ := hst
  simp only [State.Inv, State.ringInRange, State.writtenBelowCursor, State.quietBeforeSampling,
    State.cap, hp, hcur, hring, haw]
  exact ⟨hwf, hrange, hcasc hc, hbelow, hquiet⟩

/-- R262: `RESET` keeps the listed slots, and none of them counts as written any more. -/
theorem doReset_inv {s : State} (h : s.Inv) : s.doReset.Inv := by
  obtain ⟨hwf, hrange, -⟩ := h
  refine ⟨Memory.wf_stale hwf, fun e he => ?_, zero_cascaded, writtenBelowCursor_of_cursor_zero rfl,
    fun _ => ⟨rfl, fun e he => (Memory.mem_stale he).1⟩⟩
  obtain ⟨a, ha, hae⟩ := (Memory.mem_stale he).2
  exact hae ▸ hrange a ha

/-- R161: enabling the ring writes nothing. -/
theorem armed_inv {s : State} (h : s.Inv) (hp : s.rphase = .idle) :
    ({ s with rphase := .armed } : State).Inv := by
  obtain ⟨hwf, hrange, hc, hbelow, hquiet⟩ := h
  exact ⟨hwf, hrange, hc, hbelow, fun _ => hquiet (by simp [hp])⟩

/-- A slot below the moved cursor, other than the one just written, was below the cursor before. At the
wrap the moved cursor is 0 and there is no such slot (R165). -/
theorem lt_cursor_of_ne_writeSlot {aw : RingAw} {c : Word} {n : Nat} (hn : n < aw.cap)
    (hlt : n < (c + 1#32).toNat) (hne : n ≠ writeSlot aw c) : n < c.toNat := by
  have hle : (c + 1#32).toNat ≤ c.toNat + 1 := by
    rw [BitVec.toNat_add]
    exact Nat.mod_le _ _
  have hself : n ≠ c.toNat := by
    rintro rfl
    exact hne (by rw [writeSlot_eq_mod, Nat.mod_eq_of_lt hn])
  omega

theorem storeCode_ringInRange {s : State} (h : s.ringInRange) (d : Code) :
    (s.storeCode d).ringInRange := by
  intro e he
  obtain rfl | hold := Memory.mem_write he
  · exact writeSlot_lt s.ringAw s.cursor
  · exact h e hold

/-- R61: the slot and the cursor move together. -/
theorem storeCode_writtenBelowCursor {s : State} (h : s.writtenBelowCursor) (d : Code) :
    (s.storeCode d).writtenBelowCursor := by
  intro n hn hlt
  rw [State.storeCode_ring]
  by_cases hw : n = writeSlot s.ringAw s.cursor
  · simp [hw]
  · rw [Memory.read_write_other _ d hw]
    exact h n hn (lt_cursor_of_ne_writeSlot hn hlt hw)

theorem storeCode_inv {s : State} (h : s.Inv) (d : Code) : (s.storeCode d).Inv := by
  obtain ⟨hwf, hrange, hc, hbelow, -⟩ := h
  exact ⟨Memory.wf_write hwf _ d, storeCode_ringInRange hrange d, hc,
    storeCode_writtenBelowCursor hbelow d, fun hp => absurd rfl hp⟩

/-- Every operation keeps the invariant. -/
theorem after_inv {s : State} (h : s.Inv) (i : Instr) : (after i s).Inv := by
  obtain hst | ⟨-, ht⟩ | ⟨-, hp, ht⟩ | ⟨d, -, -, ht⟩ := after_ring_cases i s
  · exact inv_of_sameRing h hst fun hc => after_cascaded hc i
  · exact ht ▸ doReset_inv h
  · exact ht ▸ armed_inv h hp
  · exact ht ▸ storeCode_inv h d

/-- Settles O53: taking an event off the trace touches no element of the invariant, and the operation
performed keeps it. -/
theorem stepKeepsInvariant : Obligations.StepKeepsInvariant := by
  intro s t h hstep
  obtain ⟨-, rfl⟩ | ⟨_, rest, i, -, -, rfl⟩ := step_next_iff.1 hstep
  · exact h
  · exact after_inv (s := { s with pending := rest }) h i

end Sys2Proof.Machine
end

section
/-! The state after a list of operations: what every operation of the list keeps stays, and a list may be
compared with a sub-list of it (spec/20_memory.md R60, R69). -/

namespace Sys2Proof.Machine

/-- The state after a list of operations (R60): no list of operations fails (`execAll_afterAll`). -/
def afterAll (is : List Instr) (s : State) : State := is.foldl (fun t i => after i t) s

@[simp] theorem afterAll_nil (s : State) : afterAll [] s = s := rfl

@[simp] theorem afterAll_cons (i : Instr) (is : List Instr) (s : State) :
    afterAll (i :: is) s = afterAll is (after i s) := rfl

@[simp] theorem afterAll_append (is js : List Instr) (s : State) :
    afterAll (is ++ js) s = afterAll js (afterAll is s) := List.foldl_append

theorem execAll_afterAll (is : List Instr) (s : State) : execAll is s = .next (afterAll is s) :=
  execAll_eq is s

theorem afterAll_keeps {P : State → Prop} {is : List Instr} {s : State} (h0 : P s)
    (hk : ∀ i ∈ is, ∀ u, P u → P (after i u)) : P (afterAll is s) :=
  execAll_keeps (execAll_afterAll is s) h0 hk

@[simp] theorem afterAll_ringAw (is : List Instr) (s : State) : (afterAll is s).ringAw = s.ringAw :=
  afterAll_keeps (P := fun u => u.ringAw = s.ringAw) rfl fun i _ u hu => (after_ringAw i u).trans hu

/-- The simulation of a list by the sub-list that `p` selects, packaged once: related states stay related
when both perform an operation, and when only the full list performs one that `p` leaves out. -/
theorem afterAll_filter {R : State → State → Prop} {p : Instr → Bool} {is : List Instr} {s t : State}
    (h : R s t) (hboth : ∀ i s t, R s t → R (after i s) (after i t))
    (hskip : ∀ i ∈ is, p i = false → ∀ s t, R s t → R s (after i t)) :
    R (afterAll (is.filter p) s) (afterAll is t) := by
  induction is generalizing s t with
  | nil => exact h
  | cons i rest ih =>
    obtain ⟨hi, hrest⟩ := List.forall_mem_cons.1 hskip
    cases hp : p i with
    | true =>
      rw [List.filter_cons_of_pos hp, afterAll_cons, afterAll_cons]
      exact ih (hboth i s t h) hrest
    | false =>
      rw [List.filter_cons_of_neg (by simp [hp]), afterAll_cons]
      exact ih (hi hp s t h) hrest

end Sys2Proof.Machine
end

section
/-! The window over the ring: which slot an entry of a window names, how long a slot keeps its sample
while `TICK`s fall, and from it that a window read in time is whole (spec/20_memory.md R61, R64, R65;
spec/42_host_sequences.md R202). -/

namespace Sys2Proof.Machine

/-! ## The slots of a window -/

/-- The slot that the cursor names after `n` more writes (R162, R165). -/
theorem writeSlot_add (aw : RingAw) (c : Word) (n : Nat) :
    writeSlot aw (c + BitVec.ofNat 32 n) = (c.toNat + n) % aw.cap := by
  rw [writeSlot_eq_mod, BitVec.toNat_add, BitVec.toNat_ofNat, Nat.add_mod_mod,
    Nat.mod_mod_of_dvd _ (cap_dvd_cursor aw)]

/-- Entry `j` of a window reads the slot that the write `k - j` before the cursor value went to: the
truncation of the offset to 16 bits loses nothing (R202). -/
theorem readSlot_windowOffset (aw : RingAw) (c : Word) (k j : Nat) :
    readSlot aw (windowOffset c k j) = ((c - BitVec.ofNat 32 k).toNat + j) % aw.cap := by
  rw [← writeSlot_add, writeSlot_eq_mod, readSlot, windowOffset, BitVec.toNat_setWidth,
    Nat.mod_mod_of_dvd _ (cap_dvd_window aw)]

/-- The slot that the cursor names after `n` more writes, counted from the oldest entry of a window of
`k`. -/
theorem writeSlot_add_from_window (aw : RingAw) (c : Word) (k n : Nat) :
    writeSlot aw (c + BitVec.ofNat 32 n) = ((c - BitVec.ofNat 32 k).toNat + (k + n)) % aw.cap := by
  rw [← writeSlot_add, BitVec.ofNat_add, ← BitVec.add_assoc, BitVec.sub_add_cancel]

/-- R65: the next `CAP - k` writes miss every entry of a window of `k`. -/
theorem writeSlot_ne_windowSlot {aw : RingAw} {k j n : Nat} (hj : j < k) (hn : n < aw.cap - k)
    (c : Word) : writeSlot aw (c + BitVec.ofNat 32 n) ≠ readSlot aw (windowOffset c k j) := by
  rw [writeSlot_add_from_window aw c k n, readSlot_windowOffset]
  intro heq
  have hmod : k + n ≡ j [MOD aw.cap] := Nat.ModEq.add_left_cancel' _ heq
  have : k + n = j := hmod.eq_of_lt_of_lt (by omega) (by omega)
  omega

/-- R65: the oldest entry of a window of the whole ring is the slot the next write goes to. -/
theorem readSlot_oldest_of_full (aw : RingAw) (c : Word) :
    readSlot aw (windowOffset c aw.cap 0) = writeSlot aw c := by
  have h := writeSlot_add_from_window aw c aw.cap 0
  rw [readSlot_windowOffset]
  simpa using h.symm

/-! ## A slot that the next writes miss -/

/-- Slot `n` holds the sample `d`, and none of the next `m` writes goes to it (R65). -/
def State.holdsFor (s : State) (m n : Nat) (d : Code) : Prop :=
  Memory.read s.ring n = some d ∧ ∀ x < m, writeSlot s.ringAw (s.cursor + BitVec.ofNat 32 x) ≠ n

theorem holdsFor_of_sameRing {s t : State} {m n : Nat} {d : Code} (hst : s.sameRing t)
    (h : s.holdsFor m n d) : t.holdsFor m n d := by
  obtain ⟨-, hcur, hring, haw⟩ := hst
  simpa only [State.holdsFor, hcur, hring, haw] using h

theorem State.holdsFor.mono {s : State} {m m' n : Nat} {d : Code} (h : s.holdsFor m n d)
    (hm : m' ≤ m) : s.holdsFor m' n d :=
  ⟨h.1, fun x hx => h.2 x (hx.trans_le hm)⟩

/-- A write uses up one of the writes that miss the slot. -/
theorem storeCode_holdsFor {s : State} {m n : Nat} {d : Code} (h : s.holdsFor (m + 1) n d) (e : Code) :
    (s.storeCode e).holdsFor m n d := by
  obtain ⟨hread, hmiss⟩ := h
  have hnow : n ≠ writeSlot s.ringAw s.cursor := by simpa using (hmiss 0 (by omega)).symm
  refine ⟨by rw [State.storeCode_ring, Memory.read_write_other _ e hnow, hread], fun x hx => ?_⟩
  have hnext := hmiss (x + 1) (by omega)
  rwa [Nat.add_comm x 1, BitVec.ofNat_add, ← BitVec.add_assoc] at hnext

/-- Only a `TICK` uses up a write, and only `RESET` takes the sample away. -/
theorem after_holdsFor {i : Instr} (hr : i ≠ .reset) {s : State} {m n : Nat} {d : Code}
    (h : s.holdsFor (m + if i.isTick then 1 else 0) n d) : (after i s).holdsFor m n d := by
  obtain hst | ⟨rfl, -⟩ | ⟨-, -, ht⟩ | ⟨e, rfl, -, ht⟩ := after_ring_cases i s
  · exact holdsFor_of_sameRing hst (h.mono (by omega))
  · exact absurd rfl hr
  · exact ht ▸ h.mono (by omega)
  · exact ht ▸ storeCode_holdsFor h e

theorem afterAll_holdsFor {is : List Instr} (hr : ∀ i ∈ is, i ≠ .reset) {s : State} {m n : Nat} {d : Code}
    (h : s.holdsFor (m + tickCount is) n d) : (afterAll is s).holdsFor m n d := by
  induction is generalizing s with
  | nil => exact h
  | cons i rest ih =>
    obtain ⟨hi, hrest⟩ := List.forall_mem_cons.1 hr
    rw [tickCount, List.countP_cons, ← Nat.add_assoc] at h
    exact ih hrest (after_holdsFor hi h)

/-- R65: an entry of a window of `k` holds its sample for the next `CAP - k` writes. -/
theorem window_holdsFor {s : State} {k j m : Nat} {d : Code} (hj : j < k) (hm : m ≤ s.cap - k)
    (h : Memory.read s.ring (readSlot s.ringAw (windowOffset s.cursor k j)) = some d) :
    s.holdsFor m (readSlot s.ringAw (windowOffset s.cursor k j)) d :=
  ⟨h, fun _ hx => writeSlot_ne_windowSlot hj (hx.trans_le hm) s.cursor⟩

/-- A `RDSLOT` of a slot that still holds its sample returns it zero-extended (R164). -/
theorem rdslot_of_holdsFor {s : State} {m : Nat} {off d : Code}
    (h : s.holdsFor m (readSlot s.ringAw off) d) : after (.rdslot off) s = s.answer (zextCode d) :=
  readRing_written h.1

/-- Settles O43: the operations before the `RDSLOT` do not write the entry's slot; with `K = CAP` the next
write is to the oldest entry. -/
theorem windowIsWholeWithinSlack : Obligations.WindowIsWholeWithinSlack := by
  refine ⟨fun s is k j d _ _ hj hr hticks hread => ?_, fun s d hp => ?_⟩
  · have hend := afterAll_holdsFor (m := 0) hr (window_holdsFor hj (by omega) hread)
    rw [← afterAll_ringAw is s] at hend
    exact ⟨_, _, execAll_afterAll is s, exec_eq _ _, by rw [rdslot_of_holdsFor hend]; rfl⟩
  · refine ⟨_, _, exec_eq _ _, exec_eq _ _, ?_⟩
    have hslot : Memory.read (s.storeCode d).ring
        (readSlot (s.storeCode d).ringAw (windowOffset s.cursor s.cap 0)) = some d := by
      simp [State.cap, readSlot_oldest_of_full]
    rw [after, after, timerFire_enabled hp, readRing_written hslot]
    rfl

/-! ## The whole window as a host runs it -/

/-- The rest of a `WINDOW` (R202): the host has the cursor value `c` and the samples `ws`, and each entry it
has still to read holds its sample for as many writes as there are `TICK`s to come. -/
theorem hostRun_window {c : Word} {k : Nat} {gaps : List (List Instr)} {ds : List Code} {ws : List Word}
    {s : State} (hlen : gaps.length = ds.length) (hk : ws.length + ds.length = k)
    (hr : ∀ i ∈ gaps.flatten, i ≠ .reset)
    (hhold : ∀ j d, ds[j]? = some d →
      s.holdsFor (tickCount gaps.flatten) (readSlot s.ringAw (windowOffset c k (ws.length + j))) d) :
    ∃ t, hostRun (windowNext k) gaps (c :: ws) s = some (t, c :: ws ++ ds.map zextCode) := by
  induction gaps generalizing ds ws s with
  | nil =>
    obtain rfl : ds = [] := List.length_eq_zero_iff.1 hlen.symm
    exact ⟨s, by simp⟩
  | cons gap gaps ih =>
    obtain ⟨d, ds, rfl⟩ := List.exists_cons_of_length_eq_add_one hlen.symm
    simp only [List.length_cons, Nat.add_right_cancel_iff] at hlen hk
    rw [List.flatten_cons, List.forall_mem_append] at hr
    have hgap : ∀ j e, (d :: ds)[j]? = some e → (afterAll gap s).holdsFor (tickCount gaps.flatten)
        (readSlot s.ringAw (windowOffset c k (ws.length + j))) e := fun j e he =>
      afterAll_holdsFor hr.1 (by
        simpa [tickCount, List.countP_append, Nat.add_comm] using hhold j e he)
    have hnext : windowNext k (c :: ws) = some (.rdslot (windowOffset c k ws.length)) := by
      rw [windowNext_cons, if_pos (by omega)]
    have hread : after (.rdslot (windowOffset c k ws.length)) (afterAll gap s) =
        (afterAll gap s).answer (zextCode d) :=
      rdslot_of_holdsFor (by simpa using hgap 0 d rfl)
    obtain ⟨t, ht⟩ := ih (ws := ws ++ [zextCode d]) (s := (afterAll gap s).answer (zextCode d)) hlen
      (by simp; omega) hr.2 fun j e he => by
        simpa [State.holdsFor, Nat.add_assoc, Nat.add_comm 1 j] using hgap (j + 1) e he
    refine ⟨t, ?_⟩
    rw [hostRun_event hnext (execAll_afterAll gap s), hread]
    simpa using ht

/-- Settles O60: the `RDCURSOR` returns the cursor and changes nothing else, and from it on every entry
holds its sample until it is read. -/
theorem windowReturnsSamplesAtCursorRead : Obligations.WindowReturnsSamplesAtCursorRead := by
  intro s gap gaps ds _ _ hlen hr hticks
  refine ⟨_, execAll_afterAll gap s, fun hds => ?_⟩
  have hcap : (afterAll gap s).cap = s.cap := by simp [State.cap]
  have hstart := hostRun_event (windowNext_nil ds.length) (execAll_afterAll gap s) gaps
  obtain ⟨t, ht⟩ := hostRun_window (c := (afterAll gap s).cursor) (k := ds.length) (ws := [])
    (s := after .rdcursor (afterAll gap s)) hlen (by simp) hr fun j d hj => by
      have hjlt : j < ds.length := (List.getElem?_eq_some_iff.1 hj).1
      simpa [State.holdsFor, after] using window_holdsFor hjlt (hcap ▸ hticks) (hds j d hj)
  exact ⟨t, by simpa [windowRun, hstart, after] using ht⟩

/-! ## Windows below the cursor -/

/-- Settles O44: the write `k - j` before the cursor value went to a slot below the cursor, and those are
written (R61). -/
theorem windowBelowCursorIsWritten : Obligations.WindowBelowCursorIsWritten := by
  intro s k j hinv _ hkc hj
  obtain ⟨-, -, -, hbelow, -⟩ := hinv
  have hbase : (s.cursor - BitVec.ofNat 32 k).toNat = s.cursor.toNat - k := by
    have hlt := s.cursor.isLt
    rw [BitVec.toNat_sub_of_le] <;> simp [BitVec.le_def, Nat.mod_eq_of_lt (hkc.trans_lt hlt), hkc]
  rw [readSlot_windowOffset, hbase]
  have hle := Nat.mod_le (s.cursor.toNat - k + j) s.ringAw.cap
  exact hbelow _ (Nat.mod_lt _ (cap_pos _)) (by omega)

end Sys2Proof.Machine
end

section
/-! The two datapaths: no operation of one reads or writes the state of the other (spec/20_memory.md R69;
spec/60_exceptions.md R239). -/

namespace Sys2Proof.Machine

/-- The filter datapath's state, and the words it has emitted. -/
abbrev State.sameFilterSide (s t : State) : Prop := s.sameFilter t ∧ t.out = s.out

theorem State.sameFilterSide.trans {s t u : State} (hst : s.sameFilterSide t)
    (htu : t.sameFilterSide u) : s.sameFilterSide u := by
  obtain ⟨⟨hS, hA, hh, hi, hc⟩, ho⟩ := hst
  simpa only [State.sameFilterSide, State.sameFilter, hS, hA, hh, hi, hc, ho] using htu

theorem State.sameRing.trans {s t u : State} (hst : s.sameRing t) (htu : t.sameRing u) :
    s.sameRing u := by
  obtain ⟨hp, hcur, hring, haw⟩ := hst
  simpa only [State.sameRing, hp, hcur, hring, haw] using htu

/-! ## What an operation leaves alone -/

/-- R69: no filter operation writes ring state. -/
theorem after_filter_sameRing {i : Instr} (h : i.isFilter = true) (s : State) :
    s.sameRing (after i s) := by
  obtain hst | ⟨rfl, -⟩ | ⟨rfl, -⟩ | ⟨d, rfl, -⟩ := after_ring_cases i s
  · exact hst
  all_goals cases h

/-- No filter operation draws a free value (R168). -/
theorem after_filter_freeCtr {i : Instr} (h : i.isFilter = true) (s : State) :
    (after i s).freeCtr = s.freeCtr := by
  cases i
  case frame | commit | clrhist | commitclr | wrcoef | rdcoef | rdframecnt => rfl
  all_goals cases h

/-- R69: nothing but a ring operation or `RESET` writes ring state. -/
theorem after_sameRing_of_not_ring {i : Instr} (hr : i ≠ .reset) (h : i.isRing = false) (s : State) :
    s.sameRing (after i s) := by
  obtain hst | ⟨rfl, -⟩ | ⟨rfl, -⟩ | ⟨d, rfl, -⟩ := after_ring_cases i s
  · exact hst
  · exact absurd rfl hr
  all_goals cases h

/-- R69: nothing but a filter operation or `RESET` writes filter state or emits a word. -/
theorem after_sameFilterSide_of_not_filter {i : Instr} (hr : i ≠ .reset) (h : i.isFilter = false)
    (s : State) : s.sameFilterSide (after i s) := by
  cases i
  case reset => exact absurd rfl hr
  case frame | commit | clrhist | commitclr | wrcoef | rdcoef | rdframecnt => cases h
  all_goals simp [State.sameFilterSide, State.sameFilter, after]

theorem isFilter_of_isRing {i : Instr} (h : i.isRing = true) : i ≠ .reset ∧ i.isFilter = false := by
  cases i
  case tick | arm | rdcursor | rdslot => exact ⟨nofun, rfl⟩
  all_goals cases h

/-! ## What an operation depends on -/

/-- R69: what an operation does to filter state and `OUT` depends on filter state and `OUT` alone. -/
theorem after_sameFilterSide_congr (i : Instr) {s t : State} (h : s.sameFilterSide t) :
    (after i s).sameFilterSide (after i t) := by
  obtain ⟨⟨hS, hA, hh, hi, hc⟩, ho⟩ := h
  cases i <;>
    simp [State.sameFilterSide, State.sameFilter, after, State.leftLane, State.rightLane, hS, hA, hh, hi,
      hc, ho]

/-- R69: what an operation does to ring state depends on ring state alone. -/
theorem after_sameRing_congr (i : Instr) {s t : State} (h : s.sameRing t) :
    (after i s).sameRing (after i t) := by
  obtain ⟨hp, hcur, hring, haw⟩ := h
  cases i
  case arm =>
    cases hs : s.rphase <;> simp [State.sameRing, after, State.armRing, hp, hcur, hring, haw, hs]
  case tick d =>
    cases hs : s.rphase <;> simp [State.sameRing, after, State.timerFire, hp, hcur, hring, haw, hs]
  all_goals simp [State.sameRing, after, hp, hcur, hring, haw]

/-- R69: what a filter operation returns depends on filter state alone. -/
theorem after_filter_reads_congr {i : Instr} (hf : i.isFilter = true) {s t : State}
    (h : s.sameFilter t) (hr : t.reads = s.reads) : (after i t).reads = (after i s).reads := by
  obtain ⟨hS, -, -, -, hc⟩ := h
  cases i
  case frame | commit | clrhist | commitclr | wrcoef | rdcoef | rdframecnt => simp [after, hS, hc, hr]
  all_goals cases hf

/-- R69: what a ring operation returns depends on ring state alone, and on the free value that an unwritten
slot reads as (R168). -/
theorem after_ring_reads_congr {i : Instr} (hi : i.isRing = true) {s t : State}
    (h : s.sameRing t) (hf : t.freeCtr = s.freeCtr) (hr : t.reads = s.reads) :
    (after i t).reads = (after i s).reads := by
  obtain ⟨-, hcur, hring, haw⟩ := h
  cases i
  case tick | arm | rdcursor => simp [after, hcur, hr]
  case rdslot off =>
    simp only [after, State.readRing, hring, haw, hf]
    split <;> simp [hr]
  all_goals cases hi

/-- Settles O46: the frame of each family, and what its effect depends on. -/
theorem datapathsAreIndependent : Obligations.DatapathsAreIndependent := by
  refine ⟨fun i s hi => ?_, fun i s hi => ?_, fun i s s' hi hst ho hr => ?_, fun i s s' hi hst hf hr => ?_⟩
  · exact ⟨_, exec_eq i s, after_filter_sameRing hi s, after_filter_freeCtr hi s⟩
  · obtain ⟨hreset, hnot⟩ := isFilter_of_isRing hi
    obtain ⟨hsame, hout⟩ := after_sameFilterSide_of_not_filter hreset hnot s
    exact ⟨_, exec_eq i s, hsame, hout⟩
  · obtain ⟨hsame, hout⟩ := after_sameFilterSide_congr i ⟨hst, ho.symm⟩
    exact ⟨_, _, exec_eq i s, exec_eq i s', hsame, hout.symm,
      (after_filter_reads_congr hi hst hr.symm).symm⟩
  · exact ⟨_, _, exec_eq i s, exec_eq i s', after_sameRing_congr i hst,
      (after_ring_reads_congr hi hst hf.symm hr.symm).symm⟩

/-- Settles O47: each datapath's part of the state runs along the operations of that datapath alone, since
both parts depend on themselves alone and the other operations leave them as they are. -/
theorem interleavingIsIrrelevant : Obligations.InterleavingIsIrrelevant := by
  intro is s hr
  obtain ⟨hfilter, hout⟩ : (afterAll (is.filter Instr.isFilter) s).sameFilterSide (afterAll is s) :=
    afterAll_filter ⟨⟨rfl, rfl, rfl, rfl, rfl⟩, rfl⟩ (fun i _ _ => after_sameFilterSide_congr i)
      fun i hi hnot _ t hst => hst.trans (after_sameFilterSide_of_not_filter (hr i hi) hnot t)
  have hring : (afterAll (is.filter Instr.isRing) s).sameRing (afterAll is s) :=
    afterAll_filter ⟨rfl, rfl, rfl, rfl⟩ (fun i _ _ => after_sameRing_congr i)
      fun i hi hnot _ t hst => hst.trans (after_sameRing_of_not_ring (hr i hi) hnot t)
  exact ⟨_, _, _, execAll_afterAll _ _, execAll_afterAll _ _, execAll_afterAll _ _, hfilter, hout, hring⟩

/-! ## Either order -/

/-- A filter operation passes over the write of a `TICK`. -/
theorem after_filter_storeCode {i : Instr} (h : i.isFilter = true) (s : State) (d : Code) :
    after i (s.storeCode d) = (after i s).storeCode d := by
  cases i
  case frame | commit | clrhist | commitclr | wrcoef | rdcoef | rdframecnt => rfl
  all_goals cases h

/-- A filter operation passes over the enabling of the ring. -/
theorem after_filter_setPhase {i : Instr} (h : i.isFilter = true) (s : State) (p : Phase) :
    after i { s with rphase := p } = { after i s with rphase := p } := by
  cases i
  case frame | commit | clrhist | commitclr | wrcoef | rdcoef | rdframecnt => rfl
  all_goals cases h

theorem after_filter_tick {i : Instr} (h : i.isFilter = true) (d : Code) (s : State) :
    after i (after (.tick d) s) = after (.tick d) (after i s) := by
  obtain ⟨hp, -⟩ := after_filter_sameRing h s
  show after i (s.timerFire d) = (after i s).timerFire d
  by_cases hs : s.rphase = .idle
  · rw [timerFire_idle hs, timerFire_idle (hp.trans hs)]
  · rw [timerFire_enabled hs, timerFire_enabled (hp ▸ hs), after_filter_storeCode h]

theorem after_filter_arm {i : Instr} (h : i.isFilter = true) (s : State) :
    after i (after .arm s) = after .arm (after i s) := by
  obtain ⟨hp, -⟩ := after_filter_sameRing h s
  show after i s.armRing = (after i s).armRing
  by_cases hs : s.rphase = .idle
  · rw [armRing_idle hs, armRing_idle (hp.trans hs), after_filter_setPhase h]
  · rw [armRing_enabled hs, armRing_enabled (hp ▸ hs)]

/-- Settles O48: every writing operation of the filter is one of its family, and those pass over `TICK` and
`ARM`. -/
theorem filterAndRingEventsCommute : Obligations.FilterAndRingEventsCommute := by
  intro i j s hi hj
  have hfilter : i.isFilter = true := by
    obtain ⟨w, rfl⟩ | ⟨st, k, v, rfl⟩ | rfl | rfl | rfl := hi <;> rfl
  have hcomm : after i (after j s) = after j (after i s) := by
    obtain ⟨d, rfl⟩ | rfl := hj
    · exact after_filter_tick hfilter d s
    · exact after_filter_arm hfilter s
  exact ⟨after j (after i s), execAll_afterAll [i, j] s, hcomm ▸ execAll_afterAll [j, i] s⟩

end Sys2Proof.Machine
end

section
/-! The order of events at each interface: words on `OUT` by frame, coefficient writes and commits, bus
accesses done twice, and the cursor by writing `TICK`s (spec/20_memory.md R58, R62, R67, R68). -/

namespace Sys2Proof.Machine

/-! ## Words on `OUT` -/

/-- R68: a list of operations appends one word to `OUT` per frame and moves none that stood there. -/
theorem afterAll_out (is : List Instr) (s : State) :
    ∃ ws, (afterAll is s).out = s.out ++ ws ∧ ws.length = frameCount is := by
  obtain ⟨t, ws, _, ht, hout, hlen, -⟩ := execAll_out_reads is s
  obtain rfl : afterAll is s = t := by simpa [execAll_afterAll] using ht
  exact ⟨ws, hout, hlen⟩

/-- Settles O22: the words before the frame's and the words after it are counted by the frames of each
list. -/
theorem outputsComeInFrameOrder : Obligations.OutputsComeInFrameOrder := by
  intro pre post w s
  obtain ⟨before, hpre, hprelen⟩ := afterAll_out pre s
  obtain ⟨later, hpost, hpostlen⟩ := afterAll_out post ((afterAll pre s).processFrame w)
  refine ⟨_, _, _, _, execAll_afterAll pre s, exec_eq _ _, execAll_afterAll _ s, rfl, ?_⟩
  have hout : (afterAll (pre ++ .frame w :: post) s).out = (s.out ++ before) ++
      pack ((afterAll pre s).leftLane w).sample ((afterAll pre s).rightLane w).sample :: later := by
    rw [afterAll_append, afterAll_cons, after, hpost, State.processFrame_out, hpre, List.append_assoc _ [_]]
    rfl
  rw [hout, ← hprelen, ← hpostlen, ← List.length_append]
  exact ⟨by simp, by simp; omega⟩

/-! ## Commits -/

/-- R67: nothing but a commit or `RESET` changes the active bank. -/
theorem after_coefA {i : Instr} (h : i ≠ .commit ∧ i ≠ .commitclr ∧ i ≠ .reset) (s : State) :
    (after i s).coefA = s.coefA := by
  obtain ⟨hcommit, hcommitclr, hreset⟩ := h
  cases i
  case commit => exact absurd rfl hcommit
  case commitclr => exact absurd rfl hcommitclr
  case reset => exact absurd rfl hreset
  all_goals simp [after]

theorem afterAll_coefA {is : List Instr} (h : ∀ i ∈ is, i ≠ .commit ∧ i ≠ .commitclr ∧ i ≠ .reset)
    (s : State) : (afterAll is s).coefA = s.coefA :=
  afterAll_keeps (P := fun u => u.coefA = s.coefA) rfl fun i hi u hu => (after_coefA (h i hi) u).trans hu

/-- R67: a frame does not see the shadow bank. -/
theorem processFrame_putShadow (s : State) (st : Stage) (k : CoefIx) (v w : Word) :
    (s.putShadow st k v).processFrame w = (s.processFrame w).putShadow st k v := rfl

theorem after_commit_coefA {c : Instr} (h : c = .commit ∨ c = .commitclr) (s : State) :
    (after c s).coefA = s.coefS := by
  obtain rfl | rfl := h <;> rfl

/-- Settles O31: the active bank is kept between commits, and a commit makes it the shadow bank. -/
theorem coefficientWritesWaitForCommit : Obligations.CoefficientWritesWaitForCommit := by
  refine ⟨fun is s h => ⟨_, execAll_afterAll is s, afterAll_coefA h s⟩, fun st k v w s => ?_,
    fun w s => ⟨_, _, execAll_afterAll _ s, exec_eq _ _, rfl⟩,
    fun w s => ⟨_, _, execAll_afterAll _ s, exec_eq _ _, rfl⟩, fun c is s hc h => ?_⟩
  · refine ⟨_, s.processFrame w, execAll_afterAll _ s, exec_eq _ _, ?_⟩
    rw [afterAll_cons, afterAll_cons, afterAll_nil, after, after, processFrame_putShadow]
    exact ⟨rfl, rfl, rfl⟩
  · exact ⟨_, execAll_afterAll _ s, (afterAll_coefA h _).trans (after_commit_coefA hc s)⟩

/-! ## Accesses done twice -/

/-- A `RDSLOT` only adds to the read data, and to the count of free values (R164, R168). -/
theorem readRing_eq (s : State) (off : Code) :
    ∃ v, s.readRing off = { s with reads := s.reads ++ [v], freeCtr := (s.readRing off).freeCtr } := by
  cases h : Memory.read s.ring (readSlot s.ringAw off) with
  | none => exact ⟨_, by rw [readRing_unwritten h]; rfl⟩
  | some c => exact ⟨_, by rw [readRing_written h]; rfl⟩

@[simp] theorem CoefSet.put_put (c : CoefSet) (k : CoefIx) (v : Word) : (c.put k v).put k v = c.put k v := by
  cases k <;> rfl

@[simp] theorem Bank.put_put (b : Bank) (st : Stage) (k : CoefIx) (v : Word) :
    (b.put st k v).put st k v = b.put st k v := by
  cases st <;> simp [Bank.put]

theorem armRing_armRing (s : State) : s.armRing.armRing = s.armRing := by
  cases h : s.rphase <;> simp [State.armRing, h]

/-- A read that adds the same word to whatever has been read adds it twice when it is done twice. -/
theorem execAll_read_twice {i : Instr} {s : State} {v : Word}
    (h : ∀ rs, after i { s with reads := rs } = { s with reads := rs ++ [v] }) :
    execAll [i, i] s = .next { s with reads := s.reads ++ [v, v] } := by
  have hfirst : after i s = { s with reads := s.reads ++ [v] } := h s.reads
  rw [execAll_afterAll, afterAll_cons, afterAll_cons, afterAll_nil, hfirst, h, List.append_assoc]
  rfl

/-- Settles O34: what a read returns does not depend on the read data before it, and each of the five
operations writes what it has written already. -/
theorem readsAndRepeatsAreHarmless : Obligations.ReadsAndRepeatsAreHarmless := by
  refine ⟨fun i s hi => ?_, fun i s hi => ?_, fun i s hi => ?_⟩
  · obtain rfl | rfl | rfl | ⟨st, k, rfl⟩ | ⟨off, rfl⟩ | ⟨a, rfl⟩ := hi
    case inr.inr.inr.inr.inl =>
      obtain ⟨v, hv⟩ := readRing_eq s off
      exact ⟨_, v, exec_eq _ s, hv⟩
    all_goals exact ⟨_, _, exec_eq _ s, rfl⟩
  · obtain rfl | rfl | rfl | ⟨st, k, rfl⟩ | ⟨off, rfl, hread⟩ | ⟨a, rfl⟩ := hi
    · exact ⟨_, statusWord s.isat s.rphase, execAll_read_twice fun _ => rfl, rfl⟩
    · exact ⟨_, s.frameCnt, execAll_read_twice fun _ => rfl, rfl⟩
    · exact ⟨_, s.cursor, execAll_read_twice fun _ => rfl, rfl⟩
    · exact ⟨_, s.coefS.get st k, execAll_read_twice fun _ => rfl, rfl⟩
    · obtain ⟨c, hc⟩ := Option.isSome_iff_exists.1 hread
      exact ⟨_, zextCode c, execAll_read_twice fun rs => readRing_written (s := { s with reads := rs }) hc,
        rfl⟩
    · exact ⟨_, 0#32, execAll_read_twice fun _ => rfl, rfl⟩
  · have hidem : after i (after i s) = after i s := by
      obtain ⟨st, k, v, rfl⟩ | rfl | rfl | rfl | rfl := hi
      case inl => simp [after, State.putShadow]
      case inr.inr.inr.inr => exact armRing_armRing s
      all_goals rfl
    exact ⟨after i s, exec_eq i s, (execAll_afterAll [i, i] s).trans (congrArg _ hidem)⟩

/-! ## The cursor -/

/-- Whether the ring is enabled (R27): what `writtenCodes` asks about the state before a list. -/
def State.enabled (s : State) : Bool := decide (s.rphase ≠ .idle)

theorem State.enabled_congr {s t : State} (h : t.rphase = s.rphase) : t.enabled = s.enabled := by
  simp only [State.enabled, h]

/-- The samples a list writes are those of its first operation and those of the rest, before which the ring
is enabled if it was or the first operation is `ARM`. -/
theorem writtenCodes_cons (b : Bool) (i : Instr) (is : List Instr) :
    writtenCodes b (i :: is) = writtenCodes b [i] ++ writtenCodes (b || decide (i = .arm)) is := by
  cases i
  case tick d => cases b <;> rfl
  all_goals simp [writtenCodes, Instr.tickCode]

/-- R161: `ARM` enables the ring, and but for `RESET` nothing disables it. -/
theorem after_enabled {i : Instr} (hr : i ≠ .reset) (s : State) :
    (after i s).enabled = (s.enabled || decide (i = .arm)) := by
  cases i
  case reset => exact absurd rfl hr
  case tick d => cases h : s.rphase <;> simp [State.enabled, after, State.timerFire, h]
  case arm => cases h : s.rphase <;> simp [State.enabled, after, State.armRing, h]
  all_goals rw [State.enabled_congr (s := s) (by simp [after])]; simp

/-- R162: the cursor moves by one for each sample written. -/
theorem after_cursor {i : Instr} (hr : i ≠ .reset) (s : State) :
    (after i s).cursor = s.cursor + BitVec.ofNat 32 (writtenCodes s.enabled [i]).length := by
  cases i
  case reset => exact absurd rfl hr
  case tick d => cases h : s.rphase <;>
    simp [State.enabled, after, State.timerFire, writtenCodes, Instr.tickCode, h]
  all_goals simp [after, writtenCodes, Instr.tickCode]

theorem afterAll_cursor {is : List Instr} (hr : ∀ i ∈ is, i ≠ .reset) (s : State) :
    (afterAll is s).cursor = s.cursor + BitVec.ofNat 32 (writtenCodes s.enabled is).length := by
  induction is generalizing s with
  | nil => simp [writtenCodes]
  | cons i rest ih =>
    obtain ⟨hi, hrest⟩ := List.forall_mem_cons.1 hr
    rw [afterAll_cons, ih hrest, after_cursor hi, after_enabled hi, writtenCodes_cons _ i rest,
      List.length_append, BitVec.ofNat_add, BitVec.add_assoc]

theorem afterAll_enabled {is : List Instr} (hr : ∀ i ∈ is, i ≠ .reset) (s : State) :
    (afterAll is s).enabled = (s.enabled || decide (.arm ∈ is)) := by
  induction is generalizing s with
  | nil => simp
  | cons i rest ih =>
    obtain ⟨hi, hrest⟩ := List.forall_mem_cons.1 hr
    rw [afterAll_cons, ih hrest, after_enabled hi]
    simp [Bool.or_assoc, eq_comm]

/-- R62: the `TICK` in an enabled ring writes the cursor's slot, that one alone, and moves the cursor. -/
theorem tick_enabled {s : State} (hp : s.rphase ≠ .idle) (d : Code) :
    Memory.read (after (.tick d) s).ring (s.cursor.toNat % s.cap) = some d ∧
    (∀ n, n ≠ s.cursor.toNat % s.cap → Memory.read (after (.tick d) s).ring n = Memory.read s.ring n) ∧
    (after (.tick d) s).cursor = s.cursor + 1#32 := by
  rw [after, timerFire_enabled hp, State.storeCode_ring, writeSlot_eq_mod]
  exact ⟨Memory.read_write_same .., fun n hn => Memory.read_write_other _ d hn, rfl⟩

/-- Settles O42: the cursor after the list is the number of samples written, and names the slot of the next
one. -/
theorem cursorCountsWritingTicks : Obligations.CursorCountsWritingTicks := by
  refine ⟨fun is s d hr harm => ?_, fun is s hr => ?_⟩
  · have hcur : (afterAll is s.doReset).cursor.toNat = (writtenCodes false is).length % 2 ^ 32 := by
      simp [afterAll_cursor hr, State.enabled]
    have henabled : (afterAll is s.doReset).rphase ≠ .idle := by
      simpa [harm, State.enabled] using afterAll_enabled hr s.doReset
    obtain ⟨hread, hother, hnext⟩ := tick_enabled henabled d
    have hcap : (afterAll is s.doReset).cap = s.cap := by simp [State.cap]
    rw [hcur, hcap, State.cap, Nat.mod_mod_of_dvd _ (cap_dvd_cursor s.ringAw)] at hread hother
    exact ⟨_, _, execAll_afterAll _ s, exec_eq _ _, hread, hother,
      (congrArg BitVec.toNat hnext).trans (by simp [hcur])⟩
  · obtain ⟨t, -, mid, ht, -, -, hmid, -⟩ := execAll_out_reads is (s.answer s.cursor)
    obtain rfl : afterAll is (s.answer s.cursor) = t := by simpa [execAll_afterAll] using ht
    refine ⟨_, mid, execAll_afterAll _ s, ?_⟩
    rw [List.cons_append, afterAll_cons, afterAll_append, afterAll_cons, afterAll_nil, after, after,
      State.answer_reads, hmid, afterAll_cursor hr]
    rfl

end Sys2Proof.Machine
end

section
/-! Clock cycles: which events a cycle is, and what becomes of the words at the pins
(spec/20_memory.md R68, R71; spec/60_exceptions.md R239; spec/70_reset_and_hazards.md R260). -/

namespace Sys2Proof.Machine

/-! ## The events of a cycle -/

/-- R71: in reset the block takes no word. -/
theorem Pins.inReady_reset (p : Pins) {c : Cycle} (t : Timing) (hr : c.rst = true) :
    p.inReady c t = false := by
  simp [Pins.inReady, hr]

/-- R71: outside reset the bus, `IN` and the timer each add their event. -/
theorem Pins.mem_events {p : Pins} {c : Cycle} {t : Timing} (hr : c.rst = false) {e : EventWord} :
    e ∈ p.events c t ↔
      (c.busValid = true ∧ e = c.busEvent) ∨
      ((c.inValid && p.inReady c t) = true ∧ e = encode (.frame c.inData)) ∨
      (c.tick = true ∧ e = encode (.tick c.adc)) := by
  simp only [Pins.events, hr, Bool.false_eq_true, if_false, List.mem_append, List.mem_ite_nil_right,
    List.mem_singleton, or_assoc]

theorem Pins.length_events {p : Pins} {c : Cycle} {t : Timing} (hr : c.rst = false) :
    (p.events c t).length = (if c.busValid then 1 else 0) + (if c.inValid && p.inReady c t then 1 else 0) +
      (if c.tick then 1 else 0) := by
  simp only [Pins.events, hr, Bool.false_eq_true, if_false, List.length_append, apply_ite List.length,
    List.length_singleton, List.length_nil]

/-- Settles O56: the order of the events changes neither their number nor which they are. -/
theorem cycleEventsSpellEvents : Obligations.CycleEventsSpellEvents := by
  refine ⟨fun p c t es hr h => Pins.mayPerform_reset hr h, fun p c t es hr h => ?_⟩
  have hmem : ∀ {e}, e ∈ es ↔ _ := fun {e} => h.mem_iff.trans (Pins.mem_events hr)
  refine ⟨h.length_eq.trans (Pins.length_events hr), fun e he => Pins.events_spelled h he, fun hb => ?_,
    fun hi hready => ?_, fun ht => ?_⟩
  · exact hmem.2 (.inl ⟨hb, rfl⟩)
  · exact ⟨_, hmem.2 (.inr (.inl ⟨by simp [hi, hready], rfl⟩)), Laws.RoundTrip.frame _ rfl⟩
  · exact ⟨_, hmem.2 (.inr (.inr ⟨ht, rfl⟩)), Laws.RoundTrip.tick _ rfl⟩

/-! ## The operations of a cycle -/

/-- The operation of the bus transaction on the signals (R90). -/
def Cycle.busOp (c : Cycle) : Instr :=
  if c.busWe then decodeWrite c.busAddr c.busWdata else decodeRead c.busAddr

/-- The operations that the events of a cycle spell, in the order of `Pins.events` (`Pins.events_spell_ops`). -/
def Pins.ops (p : Pins) (c : Cycle) (t : Timing) : List Instr :=
  if c.rst then [.reset]
  else
    (if c.busValid then [c.busOp] else []) ++ (if c.inValid && p.inReady c t then [.frame c.inData] else [])
      ++ (if c.tick then [.tick c.adc] else [])

/-- The event word spells the operation (R89). -/
abbrev spells (e : EventWord) (i : Instr) : Prop := decode e = .ok i

theorem spells_if {e : EventWord} {i : Instr} (h : spells e i) (q : Bool) :
    List.Forall₂ spells (if q then [e] else []) (if q then [i] else []) := by
  cases q
  · exact .nil
  · exact .cons h .nil

theorem Pins.events_spell_ops (p : Pins) (c : Cycle) (t : Timing) :
    List.Forall₂ spells (p.events c t) (p.ops c t) := by
  unfold Pins.events Pins.ops
  split
  · exact .cons (Laws.RoundTrip.reset rfl) .nil
  · refine List.rel_append (R := spells) (List.rel_append (R := spells) ?_ ?_) ?_
    · exact spells_if (decode_busEvent c) _
    · exact spells_if (Laws.RoundTrip.frame _ rfl) _
    · exact spells_if (Laws.RoundTrip.tick _ rfl) _

theorem Cycle.busOp_not_frame (c : Cycle) : c.busOp.isFrame = false := by
  unfold Cycle.busOp
  split
  · exact (isRead_decodeWrite _ _).2
  · exact (isRead_decodeRead _).2

theorem countP_if_singleton (q : Instr → Bool) (b : Bool) (i : Instr) :
    (if b then [i] else []).countP q = if b && q i then 1 else 0 := by
  cases b <;> simp [List.countP_singleton]

/-- Outside reset the operations of a cycle are counted interface by interface. -/
theorem Pins.countP_ops (q : Instr → Bool) {p : Pins} {c : Cycle} {t : Timing} (hr : c.rst = false) :
    (p.ops c t).countP q =
      (if c.busValid && q c.busOp then 1 else 0)
        + (if c.inValid && p.inReady c t && q (.frame c.inData) then 1 else 0)
        + (if c.tick && q (.tick c.adc) then 1 else 0) := by
  simp only [Pins.ops, hr, Bool.false_eq_true, if_false, List.countP_append, countP_if_singleton]

/-- A cycle performs one `FRAME` if it takes a word from `IN`, else none. -/
theorem Pins.frameCount_ops (p : Pins) (c : Cycle) (t : Timing) :
    frameCount (p.ops c t) = if c.inValid && p.inReady c t then 1 else 0 := by
  have hframe : (Instr.frame c.inData).isFrame = true := rfl
  have htick : (Instr.tick c.adc).isFrame = false := rfl
  cases hr : c.rst with
  | true =>
    simp only [Pins.ops, hr, p.inReady_reset t hr, Bool.and_false]
    rfl
  | false => simp [frameCount, Pins.countP_ops _ hr, c.busOp_not_frame, hframe, htick]

/-- Outside reset a cycle with a read on the bus performs one read. -/
theorem Pins.countP_isRead_ops {p : Pins} {c : Cycle} {t : Timing} (hr : c.rst = false)
    (hb : c.busValid = true) (hw : c.busWe = false) : (p.ops c t).countP Instr.isRead = 1 := by
  have hbus : c.busOp.isRead = true := by simp [Cycle.busOp, hw, isRead_decodeRead]
  have hframe : (Instr.frame c.inData).isRead = false := rfl
  have htick : (Instr.tick c.adc).isRead = false := rfl
  simp [Pins.countP_ops _ hr, hb, hbus, hframe, htick]

/-- R68, R71: what the events of a cycle leave, in every order: one more word emitted for the word taken,
and one more word read for a read on the bus. -/
theorem Pins.runWords_events {p : Pins} {c : Cycle} {t : Timing} {es : List EventWord}
    (h : p.mayPerform c t es) (s : State) :
    ∃ u ws rs, runWords es s = .next u ∧ u.out = s.out ++ ws ∧
      ws.length = (if c.inValid && p.inReady c t then 1 else 0) ∧ u.reads = s.reads ++ rs ∧
      rs.length = (p.ops c t).countP Instr.isRead := by
  obtain ⟨is, hspell, hperm⟩ := List.perm_comp_forall₂ h (p.events_spell_ops c t)
  obtain ⟨u, ws, rs, hu, hout, hws, hreads, hrs⟩ := execAll_out_reads is s
  exact ⟨u, ws, rs, (runWords_spelled hspell s).trans hu, hout,
    hws.trans ((hperm.countP_eq _).trans (p.frameCount_ops c t)), hreads, hrs.trans (hperm.countP_eq _)⟩

/-! ## The words at the pins -/

/-- A cycle whose events leave the block in `s` (`Pins.clock_of_runWords`). -/
def Pins.cycleOut (p : Pins) (c : Cycle) (t : Timing) (s : State) : CycleOut where
  inReady := p.inReady c t
  outValid := p.outValid c t s
  outData := p.outData c t s
  busRdata := p.busRdata t s
  next :=
    { block := s
      flight := p.flightAfter c t s
      waiting := p.waitingAfter c t s
      unanswered := p.unansweredAfter c t s
      depth := p.depth }

theorem Pins.clock_of_runWords {p : Pins} {es : List EventWord} {s : State}
    (h : runWords es p.block = .next s) (c : Cycle) (t : Timing) :
    p.clock c t es = some (p.cycleOut c t s) := by
  simp [Pins.clock, h, Pins.cycleOut]

/-- The word a cycle hands over to the consumer of `OUT` (R71). -/
def Pins.handedOver (p : Pins) (c : Cycle) (t : Timing) (s : State) : List Word :=
  if p.outValid c t s && c.outReady then (p.outData c t s).toList else []

section
variable {p : Pins} {c : Cycle} {t : Timing} {s : State}

theorem Pins.outValid_iff :
    p.outValid c t s = true ↔ c.rst = false ∧ t.offers = true ∧ p.onOut t s ≠ [] := by
  simp [Pins.outValid, and_assoc]

/-- R71: while a word is offered it is the oldest on `OUT`. -/
theorem Pins.outData_of_outValid (h : p.outValid c t s = true) :
    ∃ w ws, p.onOut t s = w :: ws ∧ p.outData c t s = some w := by
  obtain ⟨-, -, hne⟩ := Pins.outValid_iff.1 h
  obtain ⟨w, ws, hw⟩ := List.exists_cons_of_ne_nil hne
  exact ⟨w, ws, hw, by simp [Pins.outData, h, hw]⟩

theorem Pins.outValid_iff_outData : p.outValid c t s = true ↔ ∃ w, p.outData c t s = some w := by
  constructor
  · intro h
    obtain ⟨w, -, -, hw⟩ := Pins.outData_of_outValid h
    exact ⟨w, hw⟩
  · rintro ⟨w, hw⟩
    by_contra h
    simp [Pins.outData, h] at hw

/-- R71: the words on `OUT` are the one handed over and those that wait on. -/
theorem Pins.handedOver_append_waitingAfter (hr : c.rst = false) :
    p.handedOver c t s ++ p.waitingAfter c t s = p.onOut t s := by
  unfold Pins.handedOver Pins.waitingAfter
  cases hv : p.outValid c t s && c.outReady with
  | false => simp [hr]
  | true =>
    obtain ⟨w, ws, hw, hdata⟩ := Pins.outData_of_outValid (Bool.and_eq_true_iff.1 hv).1
    simp [hr, hw, hdata]

/-- R68: outside reset the words kept and the word taken are the word handed over and the words kept
after. -/
theorem Pins.words_conserved (hr : c.rst = false) {ws : List Word} (hout : s.out = p.block.out ++ ws) :
    p.waiting ++ p.flight ++ ws =
      p.handedOver c t s ++ p.waitingAfter c t s ++ p.flightAfter c t s := by
  rw [Pins.handedOver_append_waitingAfter hr]
  simp [Pins.onOut, Pins.flightAfter, Pins.onTheWay, hr, hout]

/-- R68: with `OUT` blocked and no room left the block stops accepting. -/
theorem Pins.inReady_of_blocked (hready : c.outReady = false) (hfull : p.depth ≤ p.held) :
    p.inReady c t = false := by
  simp [Pins.inReady, hready, hfull]

/-- A word taken where there is no room left is taken in a cycle that hands one over. -/
theorem Pins.handedOver_of_full (hready : p.inReady c t = true) (hfull : p.depth ≤ p.held)
    {w : Word} (hout : s.out = p.block.out ++ [w]) : (p.handedOver c t s).length = 1 := by
  simp only [Pins.inReady, Bool.and_eq_true, Bool.not_eq_true', Bool.or_eq_true, decide_eq_true_eq,
    List.isEmpty_eq_false_iff, hfull.not_gt, false_or] at hready
  obtain ⟨⟨hr, -⟩, ⟨htake, hoffers⟩, hsome⟩ := hready
  have hne : p.onOut t s ≠ [] := by
    obtain hwaiting | hemits := hsome
    · simp [Pins.onOut, hwaiting]
    · simp [Pins.onOut, Pins.onTheWay, hout, hemits.ne']
  have hvalid := Pins.outValid_iff.2 ⟨hr, hoffers, hne⟩
  obtain ⟨v, -, -, hv⟩ := Pins.outData_of_outValid hvalid
  simp [Pins.handedOver, hvalid, htake, hv]

/-- R260: a cycle in reset keeps no result on its way, and of the words on `OUT` all or none. -/
theorem Pins.reset_flight_waiting (hr : c.rst = true) :
    p.flightAfter c t s = [] ∧ (p.waitingAfter c t s = p.waiting ∨ p.waitingAfter c t s = []) := by
  cases hk : t.keepsOut <;> simp [Pins.flightAfter, Pins.waitingAfter, hr, hk]

/-- R68: the block never keeps more words than it is able to. -/
theorem Pins.held_le_depth (h : p.held ≤ p.depth) {ws : List Word} (hout : s.out = p.block.out ++ ws)
    (hws : ws.length = if c.inValid && p.inReady c t then 1 else 0) :
    (p.cycleOut c t s).next.held ≤ p.depth := by
  show (p.flightAfter c t s).length + (p.waitingAfter c t s).length ≤ p.depth
  unfold Pins.held at h
  cases hr : c.rst with
  | true =>
    obtain ⟨hflight, hwaiting | hwaiting⟩ := Pins.reset_flight_waiting (p := p) (t := t) (s := s) hr
    · rw [hflight, hwaiting, List.length_nil]; omega
    · simp [hflight, hwaiting]
  | false =>
    have hlen := congrArg List.length (Pins.words_conserved (t := t) hr hout)
    simp only [List.length_append] at hlen
    cases htaken : c.inValid && p.inReady c t with
    | false => simp only [htaken, Bool.false_eq_true, if_false] at hws; omega
    | true =>
      rw [htaken, if_pos rfl] at hws
      by_cases hfull : p.depth ≤ p.held
      · obtain ⟨w, rfl⟩ := List.length_eq_one_iff.1 hws
        have := Pins.handedOver_of_full (Bool.and_eq_true_iff.1 htaken).2 hfull hout
        omega
      · unfold Pins.held at hfull; omega

/-- A read performed with none unanswered before shows its own data (R71). -/
theorem Pins.busRdata_of_read (hresp : t.responds = true) (hnone : p.unanswered = []) {v : Word}
    (hreads : s.reads = p.block.reads ++ [v]) : p.busRdata t s = some v := by
  simp [Pins.busRdata, Pins.answers, Pins.toAnswer, hresp, hnone, hreads]

end

/-- Settles O59: the events of the cycle complete and emit one word for the word taken, and the rest is what
the pins do with it. -/
theorem pinsDropNoWordOutsideReset : Obligations.PinsDropNoWordOutsideReset := by
  intro p c t es h
  obtain ⟨u, ws, rs, hu, hout, hws, hreads, hrs⟩ := Pins.runWords_events h p.block
  refine ⟨_, ws, Pins.clock_of_runWords hu c t, rfl, hout, hws, fun hr => ?_, Pins.outValid_iff_outData,
    fun hr => Pins.words_conserved hr hout, Pins.inReady_of_blocked,
    fun hheld => Pins.held_le_depth hheld hout hws, fun hr hb hw hresp hnone => ?_⟩
  · obtain ⟨hflight, hwaiting⟩ := Pins.reset_flight_waiting (p := p) (t := t) (s := u) hr
    exact ⟨p.inReady_reset t hr, by simp [Pins.cycleOut, Pins.outValid, hr], hflight, hwaiting⟩
  · obtain ⟨v, rfl⟩ := List.length_eq_one_iff.1 (hrs.trans (Pins.countP_isRead_ops hr hb hw))
    exact ⟨v, hreads, Pins.busRdata_of_read hresp hnone hreads⟩

end Sys2Proof.Machine
end

section
/-! The register map by fields and by number: which addresses are coefficient registers, the ring window or
reserved (spec/30_encoding.md R90, R95 to R97). -/

namespace Sys2Proof.Machine

theorem stageCode_stageOfCode (b : BitVec 2) : stageCode (stageOfCode b) = b := by
  revert b; decide

theorem coefIxCode_of_coefIxOfCode {b : BitVec 3} {k : CoefIx} (h : coefIxOfCode b = some k) :
    coefIxCode k = b := by
  revert b; cases k <;> decide

theorem coefIxOfCode_isSome_iff {b : BitVec 3} : (coefIxOfCode b).isSome = true ↔ b.toNat ≤ 4 := by
  revert b; decide

/-- R95: the only address at which `COEF[s][k]` is found is its own. -/
theorem coefAt_eq_some_iff {a : Addr} {s : Stage} {k : CoefIx} :
    coefAt a = some (s, k) ↔ a = coefAddr s k := by
  refine ⟨fun h => ?_, fun h => h ▸ coefAt_coefAddr s k⟩
  simp only [coefAt, Option.ite_none_right_eq_some, Option.map_eq_some_iff, Prod.mk.injEq] at h
  obtain ⟨hbase, k', hk, hs, rfl⟩ := h
  rw [coefAddr, coefIxCode_of_coefIxOfCode hk, ← hs, stageCode_stageOfCode, ← hbase,
    BitVec.extractLsb'_append_extractLsb'_eq_extractLsb' (by omega),
    BitVec.extractLsb'_append_extractLsb'_eq_extractLsb' (by omega)]
  exact BitVec.extractLsb'_eq_self.symm

/-- R90: an address is a coefficient register by two conditions on its fields. -/
theorem coefAt_isSome_iff {a : Addr} :
    (coefAt a).isSome = true ↔ a.extractLsb' 5 12 = 0x001#12 ∧ (a.extractLsb' 0 3).toNat ≤ 4 := by
  unfold coefAt
  split <;> simp [coefIxOfCode_isSome_iff, *]

theorem coefAt_eq_none_iff {a : Addr} :
    coefAt a = none ↔ ¬(a.extractLsb' 5 12 = 0x001#12 ∧ (a.extractLsb' 0 3).toNat ≤ 4) := by
  rw [← coefAt_isSome_iff, Option.not_isSome_iff_eq_none]

theorem inRingWindow_iff {a : Addr} : inRingWindow a = true ↔ a.extractLsb' 16 1 = 1#1 := beq_iff_eq

/-- R96: an address of the ring window is that of its offset. -/
theorem slotAddr_of_inRingWindow {a : Addr} (h : inRingWindow a = true) :
    slotAddr (a.extractLsb' 0 16) = a := by
  rw [slotAddr, ← inRingWindow_iff.1 h, BitVec.extractLsb'_append_extractLsb'_eq_extractLsb' (by omega)]
  exact BitVec.extractLsb'_eq_self

/-- R97: the addresses that are no coefficient register, by number. -/
theorem coefAt_eq_none_iff_toNat {a : Addr} :
    coefAt a = none ↔ ¬(0x20 ≤ a.toNat ∧ a.toNat ≤ 0x3F ∧ a.toNat % 8 ≤ 4) := by
  have ha := a.isLt
  rw [coefAt_eq_none_iff, ← BitVec.toNat_inj, BitVec.extractLsb'_toNat, BitVec.extractLsb'_toNat,
    Nat.shiftRight_eq_div_pow, Nat.shiftRight_eq_div_pow, BitVec.toNat_ofNat]
  omega

/-- R96: the ring window is the upper half of the map. -/
theorem inRingWindow_iff_toNat {a : Addr} : inRingWindow a = true ↔ 0x10000 ≤ a.toNat := by
  have ha := a.isLt
  rw [inRingWindow_iff, ← BitVec.toNat_inj, BitVec.extractLsb'_toNat, Nat.shiftRight_eq_div_pow,
    BitVec.toNat_ofNat]
  omega

theorem readReserved_iff {a : Addr} :
    readReserved a = true ↔
      a ≠ statusAddr ∧ a ≠ frameCntAddr ∧ a ≠ cursorAddr ∧ coefAt a = none ∧ inRingWindow a = false := by
  simp [readReserved, and_assoc]

theorem writeReserved_iff {a : Addr} : writeReserved a = true ↔ a ≠ ctrlAddr ∧ coefAt a = none := by
  simp [writeReserved]

/-- R97: the reserved reads, by number. -/
theorem readReserved_iff_toNat {a : Addr} :
    readReserved a = true ↔
      a.toNat = 0 ∨ (4 ≤ a.toNat ∧ a.toNat ≤ 0x1F) ∨
      (0x20 ≤ a.toNat ∧ a.toNat ≤ 0x3F ∧ 5 ≤ a.toNat % 8) ∨ (0x40 ≤ a.toNat ∧ a.toNat ≤ 0xFFFF) := by
  rw [readReserved_iff, coefAt_eq_none_iff_toNat, ← Bool.not_eq_true, inRingWindow_iff_toNat]
  simp only [ne_eq, ← BitVec.toNat_inj, statusAddr, frameCntAddr, cursorAddr, BitVec.toNat_ofNat]
  omega

/-- R97: the reserved writes, by number. -/
theorem writeReserved_iff_toNat {a : Addr} :
    writeReserved a = true ↔
      (1 ≤ a.toNat ∧ a.toNat ≤ 0x1F) ∨
      (0x20 ≤ a.toNat ∧ a.toNat ≤ 0x3F ∧ 5 ≤ a.toNat % 8) ∨ 0x40 ≤ a.toNat := by
  rw [writeReserved_iff, coefAt_eq_none_iff_toNat]
  simp only [ne_eq, ← BitVec.toNat_inj, ctrlAddr, BitVec.toNat_ofNat]
  omega

/-- Settles O33: R97's sets by number, and what the decoder and the two operations do there. -/
theorem reservedAccessesAreInert : Obligations.ReservedAccessesAreInert :=
  ⟨fun _ => readReserved_iff_toNat, fun _ => writeReserved_iff_toNat,
    fun a s h => ⟨Laws.RoundTrip.rdrsvd a h, exec_eq (.rdrsvd a) s⟩,
    fun a v s h => ⟨Laws.RoundTrip.wrrsvd a v h, exec_eq (.wrrsvd a v) s⟩⟩

end Sys2Proof.Machine
end

section
/-! The decoder, from the word to the operation and back (spec/30_encoding.md R89 to R91, R99). -/

namespace Sys2Proof.Machine

/-- Settles O1, by the constructors: the family `RoundTrip`. -/
theorem decodeInvertsEncode : Obligations.DecodeInvertsEncode := by
  intro i
  cases i
  case reset => exact Laws.RoundTrip.reset
  case frame w => exact Laws.RoundTrip.frame w
  case tick d => exact Laws.RoundTrip.tick d
  case nop => exact Laws.RoundTrip.nop
  case commit => exact Laws.RoundTrip.commit
  case clrhist => exact Laws.RoundTrip.clrhist
  case commitclr => exact Laws.RoundTrip.commitclr
  case arm => exact Laws.RoundTrip.arm
  case wrcoef s k v => exact Laws.RoundTrip.wrcoef s k v
  case rdstatus => exact Laws.RoundTrip.rdstatus
  case rdframecnt => exact Laws.RoundTrip.rdframecnt
  case rdcursor => exact Laws.RoundTrip.rdcursor
  case rdcoef s k => exact Laws.RoundTrip.rdcoef s k
  case rdslot i => exact Laws.RoundTrip.rdslot i
  case cmdrsvd c => exact Laws.RoundTrip.cmdrsvd c
  case rdrsvd a => exact Laws.RoundTrip.rdrsvd a
  case wrrsvd a v => exact Laws.RoundTrip.wrrsvd a v

/-! ## The bus, row by row of R90 -/

theorem reservedCommand_iff {c : BitVec 4} :
    5 ≤ c.toNat ↔ c ≠ 0#4 ∧ c ≠ 1#4 ∧ c ≠ 2#4 ∧ c ≠ 3#4 ∧ c ≠ 4#4 := by
  revert c; decide

/-- R132: the command codes 5 to 15 are reserved. -/
theorem decodeCommand_reserved {d : Word} (h : 5 ≤ (d.extractLsb' 0 4).toNat) :
    decodeCommand d = .cmdrsvd (d.extractLsb' 0 4) := by
  obtain ⟨h0, h1, h2, h3, h4⟩ := reservedCommand_iff.1 h
  simp [decodeCommand, h0, h1, h2, h3, h4]

theorem coefAddr_fields (s : Stage) (k : CoefIx) :
    (coefAddr s k).extractLsb' 3 2 = stageCode s ∧ (coefAddr s k).extractLsb' 0 3 = coefIxCode k := by
  cases s <;> cases k <;> decide

@[simp] theorem decodeWrite_ctrlAddr (d : Word) : decodeWrite ctrlAddr d = decodeCommand d := if_pos rfl

@[simp] theorem decodeWrite_coefAddr (s : Stage) (k : CoefIx) (d : Word) :
    decodeWrite (coefAddr s k) d = .wrcoef s k d := by
  simp [decodeWrite, (coefAddr_ne s k).1]

@[simp] theorem decodeRead_coefAddr (s : Stage) (k : CoefIx) : decodeRead (coefAddr s k) = .rdcoef s k := by
  obtain ⟨-, hstatus, hframe, hcursor⟩ := coefAddr_ne s k
  simp [decodeRead, hstatus, hframe, hcursor]

/-- R90: a read in the ring window is `RDSLOT` of its offset. -/
theorem decodeRead_window {a : Addr} (h : inRingWindow a = true) :
    decodeRead a = .rdslot (a.extractLsb' 0 16) := by
  obtain ⟨-, hstatus, hframe, hcursor, hcoef⟩ := inRingWindow_excludes h
  simp [decodeRead, hstatus, hframe, hcursor, hcoef, h]

/-- A write goes to `CTRL`, to a coefficient register or to a reserved address (R90). -/
theorem writeAddr_cases (a : Addr) :
    a = ctrlAddr ∨ (∃ s k, a = coefAddr s k) ∨ writeReserved a = true := by
  by_cases hctrl : a = ctrlAddr
  · exact .inl hctrl
  · cases hcoef : coefAt a with
    | none => exact .inr (.inr (writeReserved_iff.2 ⟨hctrl, hcoef⟩))
    | some sk => exact .inr (.inl ⟨sk.1, sk.2, coefAt_eq_some_iff.1 hcoef⟩)

/-- A read is one of a register, of the ring window or of a reserved address (R90). -/
theorem readAddr_cases (a : Addr) :
    a = statusAddr ∨ a = frameCntAddr ∨ a = cursorAddr ∨ (∃ s k, a = coefAddr s k) ∨
      inRingWindow a = true ∨ readReserved a = true := by
  cases hcoef : coefAt a with
  | some sk => exact .inr (.inr (.inr (.inl ⟨sk.1, sk.2, coefAt_eq_some_iff.1 hcoef⟩)))
  | none =>
    rw [readReserved_iff]
    simp only [hcoef, true_and, ← Bool.not_eq_true]
    tauto

/-- Settles O5: a transaction is decoded by its address, row by row. -/
theorem busTransactionDecode : Obligations.BusTransactionDecode := by
  intro a d
  simp only [decode_busWrite, show eventWord 0#2 0#1 a 0#32 = encodeRead a from rfl, decode_busRead,
    Decoded.ok.injEq]
  refine ⟨?_, ?_, ?_, ?_, ?_, ?_, ?_, ?_⟩
  · rintro (rfl : a = ctrlAddr)
    exact ⟨fun h => by simp [decodeCommand, h], fun h => by simp [decodeCommand, h],
      fun h => by simp [decodeCommand, h], fun h => by simp [decodeCommand, h],
      fun h => by simp [decodeCommand, h], decodeCommand_reserved⟩
  · intro hbase hk
    cases hcoef : coefAt a with
    | none => exact absurd ⟨hbase, hk⟩ (coefAt_eq_none_iff.1 hcoef)
    | some sk =>
      obtain ⟨s, k⟩ := sk
      obtain rfl := coefAt_eq_some_iff.1 hcoef
      obtain ⟨hs, hk'⟩ := coefAddr_fields s k
      exact ⟨s, k, hs.symm, hk'.symm, decodeWrite_coefAddr s k d, decodeRead_coefAddr s k⟩
  · intro hctrl hcoef
    exact decodeWrite_reserved (writeReserved_iff.2 ⟨hctrl, coefAt_eq_none_iff.2 hcoef⟩) d
  · rintro rfl; rfl
  · rintro rfl; rfl
  · rintro rfl; rfl
  · exact fun h => decodeRead_window (inRingWindow_iff.2 h)
  · intro hstatus hframe hcursor hcoef hwindow
    exact decodeRead_reserved (readReserved_iff.2 ⟨hstatus, hframe, hcursor, coefAt_eq_none_iff.2 hcoef,
      Bool.eq_false_iff.2 (mt inRingWindow_iff.1 hwindow)⟩)


/-! ## The words that spell an event, and those that spell none -/

/-- A field that R89 says is zero is not. -/
abbrev zeroFieldSet (e : EventWord) : Prop :=
  (evPort e ≠ 0#2 ∧ (evWe e ≠ 0#1 ∨ evAddr e ≠ 0#17)) ∨
  (evPort e = 0#2 ∧ evWe e = 0#1 ∧ evData e ≠ 0#32) ∨
  (evPort e = 2#2 ∧ (evData e).extractLsb' 16 16 ≠ 0#16) ∨
  (evPort e = 3#2 ∧ evData e ≠ 0#32)

theorem port_cases (p : BitVec 2) : p = 0#2 ∨ p = 1#2 ∨ p = 2#2 ∨ p = 3#2 := by
  revert p; decide

/-- R89: the decoder rejects exactly the words with such a field. -/
theorem decode_invalid_iff {e : EventWord} : (∃ r, decode e = .invalid r) ↔ zeroFieldSet e := by
  have hport := port_cases (evPort e)
  have hwe := (evWe e).eq_zero_or_eq_one
  unfold decode
  split_ifs <;> simp_all [zeroFieldSet]

/-- R89: the five forms of an event word, or else a word that spells no event. -/
theorem eventWord_cases (e : EventWord) :
    (∃ a d, e = eventWord 0#2 1#1 a d) ∨ (∃ a, e = encodeRead a) ∨ (∃ w, e = encode (.frame w)) ∨
      (∃ d, e = encode (.tick d)) ∨ e = encode .reset ∨ zeroFieldSet e := by
  obtain ⟨p, w, a, d, rfl⟩ : ∃ p w a d, e = eventWord p w a d := ⟨_, _, _, _, (eventWord_fields e).symm⟩
  simp only [zeroFieldSet, evPort_eventWord, evWe_eventWord, evAddr_eventWord, evData_eventWord]
  by_cases hp : p = 0#2
  · subst hp
    obtain rfl | rfl := w.eq_zero_or_eq_one
    · by_cases hd : d = 0#32
      · exact .inr (.inl ⟨a, hd ▸ rfl⟩)
      · simp [hd]
    · exact .inl ⟨a, d, rfl⟩
  · by_cases hwa : w = 0#1 ∧ a = 0#17
    · obtain ⟨rfl, rfl⟩ := hwa
      obtain rfl | rfl | rfl | rfl := port_cases p
      · exact absurd rfl hp
      · exact .inr (.inr (.inl ⟨d, rfl⟩))
      · by_cases hd : d.extractLsb' 16 16 = 0#16
        · refine .inr (.inr (.inr (.inl ⟨d.extractLsb' 0 16, ?_⟩)))
          rw [encode, ← hd]
          exact congrArg _ (fields_append d).symm
        · simp [hd]
      · by_cases hd : d = 0#32
        · exact .inr (.inr (.inr (.inr (.inl (hd ▸ rfl)))))
        · simp [hd]
    · refine .inr (.inr (.inr (.inr (.inr (.inl ⟨hp, ?_⟩)))))
      tauto

/-- Settles O4: the five forms, then the words of no form. -/
theorem eventWordPortsAndInvalidWords : Obligations.EventWordPortsAndInvalidWords :=
  ⟨fun w => Laws.RoundTrip.frame w rfl, fun d => Laws.RoundTrip.tick d rfl, Laws.RoundTrip.reset rfl,
    decode_busWrite, decode_busRead, fun _ => decode_invalid_iff⟩

/-! ## Encoding what was decoded -/

theorem decodeCommand_wf (d : Word) : (decodeCommand d).wf = true := by
  unfold decodeCommand
  dsimp only
  split_ifs with h0 h1 h2 h3 h4
  case neg => exact decide_eq_true (reservedCommand_iff.2 ⟨h0, h1, h2, h3, h4⟩)
  all_goals rfl

/-- R91: of a command only `CMD` comes back. -/
theorem encode_decodeCommand (d : Word) :
    encode (decodeCommand d) = encodeCommand (d.extractLsb' 0 4) := by
  unfold decodeCommand
  dsimp only
  split_ifs with h0 h1 h2 h3 h4 <;> simp [encode, *]

/-- Every read comes back whole. -/
theorem decodeRead_roundTrip (a : Addr) :
    (decodeRead a).wf = true ∧ encode (decodeRead a) = encodeRead a := by
  obtain rfl | rfl | rfl | ⟨s, k, rfl⟩ | h | h := readAddr_cases a
  · exact ⟨rfl, rfl⟩
  · exact ⟨rfl, rfl⟩
  · exact ⟨rfl, rfl⟩
  · rw [decodeRead_coefAddr]; exact ⟨rfl, rfl⟩
  · rw [decodeRead_window h]; exact ⟨rfl, by rw [encode, slotAddr_of_inRingWindow h]⟩
  · rw [decodeRead_reserved h]; exact ⟨h, rfl⟩

/-- Every write to another address than `CTRL` comes back whole. -/
theorem decodeWrite_roundTrip {a : Addr} (ha : a ≠ ctrlAddr) (d : Word) :
    (decodeWrite a d).wf = true ∧ encode (decodeWrite a d) = eventWord 0#2 1#1 a d := by
  obtain rfl | ⟨s, k, rfl⟩ | h := writeAddr_cases a
  · exact absurd rfl ha
  · rw [decodeWrite_coefAddr]; exact ⟨rfl, rfl⟩
  · rw [decodeWrite_reserved h]; exact ⟨h, rfl⟩

/-- Settles O2, by the form of the word. -/
theorem encodeInvertsDecode : Obligations.EncodeInvertsDecode := by
  intro e i h
  obtain ⟨a, d, rfl⟩ | ⟨a, rfl⟩ | ⟨w, rfl⟩ | ⟨d, rfl⟩ | rfl | hset := eventWord_cases e
  · obtain rfl := Decoded.ok.inj ((decode_busWrite a d).symm.trans h)
    by_cases ha : a = ctrlAddr
    · subst ha
      rw [decodeWrite_ctrlAddr, encode_decodeCommand]
      exact ⟨decodeCommand_wf d, .inr (by simp [encodeCommand])⟩
    · obtain ⟨hwf, henc⟩ := decodeWrite_roundTrip ha d
      exact ⟨hwf, .inl henc⟩
  · obtain rfl := Decoded.ok.inj ((decode_busRead a).symm.trans h)
    obtain ⟨hwf, henc⟩ := decodeRead_roundTrip a
    exact ⟨hwf, .inl henc⟩
  · obtain rfl := Decoded.ok.inj ((Laws.RoundTrip.frame w rfl).symm.trans h)
    exact ⟨rfl, .inl rfl⟩
  · obtain rfl := Decoded.ok.inj ((Laws.RoundTrip.tick d rfl).symm.trans h)
    exact ⟨rfl, .inl rfl⟩
  · obtain rfl := Decoded.ok.inj ((Laws.RoundTrip.reset rfl).symm.trans h)
    exact ⟨rfl, .inl rfl⟩
  · obtain ⟨r, hr⟩ := decode_invalid_iff.2 hset
    cases hr.symm.trans h

end Sys2Proof.Machine
end

section
/-! The opcode table by fields, and that the decoder follows it (spec/30_encoding.md R99, R100). -/

namespace Sys2Proof.Machine

/-! ## Masks -/

/-- A mask over the upper part of a word selects that part. -/
theorem and_upperMask_iff {m n : Nat} {x : BitVec (m + n)} {p : BitVec m} :
    x &&& (BitVec.allOnes m ++ 0#n) = p ++ 0#n ↔ x.extractLsb' n m = p := by
  conv_lhs => rw [← BitVec.extractLsb'_append_extractLsb' (x := x), BitVec.and_append,
    BitVec.and_allOnes, BitVec.and_zero]
  exact BitVec.append_left_inj _

/-- A mask over the lower part of a word selects that part. -/
theorem and_lowerMask_iff {m n : Nat} {x : BitVec (m + n)} {p : BitVec n} :
    x &&& (0#m ++ BitVec.allOnes n) = 0#m ++ p ↔ x.extractLsb' 0 n = p := by
  conv_lhs => rw [← BitVec.extractLsb'_append_extractLsb' (x := x), BitVec.and_append,
    BitVec.and_allOnes, BitVec.and_zero]
  exact BitVec.append_right_inj _

theorem eventWord_ext_iff {e f : EventWord} :
    e = f ↔ evPort e = evPort f ∧ evWe e = evWe f ∧ evAddr e = evAddr f ∧ evData e = evData f := by
  refine ⟨fun h => h ▸ ⟨rfl, rfl, rfl, rfl⟩, fun ⟨hp, hw, ha, hd⟩ => ?_⟩
  rw [← eventWord_fields e, hp, hw, ha, hd, eventWord_fields]

/-- A mask and a match given field by field are compared field by field. -/
theorem and_eventWord_iff {e : EventWord} {mp p : BitVec 2} {mw w : BitVec 1} {ma a : Addr} {md d : Word} :
    e &&& eventWord mp mw ma md = eventWord p w a d ↔
      evPort e &&& mp = p ∧ evWe e &&& mw = w ∧ evAddr e &&& ma = a ∧ evData e &&& md = d := by
  have hport (f) : evPort (e &&& f) = evPort e &&& evPort f := BitVec.extractLsb'_and
  have hwe (f) : evWe (e &&& f) = evWe e &&& evWe f := BitVec.extractLsb'_and
  have haddr (f) : evAddr (e &&& f) = evAddr e &&& evAddr f := BitVec.extractLsb'_and
  have hdata (f) : evData (e &&& f) = evData e &&& evData f := BitVec.extractLsb'_and
  simp [eventWord_ext_iff, hport, hwe, haddr, hdata]

/-- The field `k` of an event word is the low part of its address (R95). -/
theorem extractK_eq (e : EventWord) : e.extractLsb' 32 3 = (evAddr e).extractLsb' 0 3 := by
  ext i hi
  simp [evAddr, show i < 17 by omega]

theorem and_tickMask {d : Word} : d &&& 0xFFFF0000#32 = 0#32 ↔ d.extractLsb' 16 16 = 0#16 :=
  and_upperMask_iff (m := 16) (n := 16) (p := 0#16)

theorem and_cmdMask {d : Word} (c : BitVec 4) : d &&& 0xF#32 = 0#28 ++ c ↔ d.extractLsb' 0 4 = c :=
  and_lowerMask_iff (m := 28) (n := 4)

theorem and_coefMask {a : Addr} : a &&& 0x1FFE0#17 = 0x20#17 ↔ a.extractLsb' 5 12 = 0x001#12 :=
  and_upperMask_iff (m := 12) (n := 5) (p := 0x001#12)

theorem and_windowMask {a : Addr} : a &&& 0x10000#17 = 0x10000#17 ↔ a.extractLsb' 16 1 = 1#1 :=
  and_upperMask_iff (m := 1) (n := 16) (p := 1#1)

/-- Each match and each mask of the table, field by field (R99). -/
theorem opRows_fields :
    opRows =
      let port := BitVec.allOnes 2
      let we := BitVec.allOnes 1
      let addr := BitVec.allOnes 17
      let data := BitVec.allOnes 32
      [ ⟨"RESET", eventWord 3#2 0#1 0#17 0#32, eventWord port we addr data, false⟩,
        ⟨"FRAME", eventWord 1#2 0#1 0#17 0#32, eventWord port we addr 0#32, false⟩,
        ⟨"TICK", eventWord 2#2 0#1 0#17 0#32, eventWord port we addr 0xFFFF0000#32, false⟩,
        ⟨"NOP", eventWord 0#2 1#1 ctrlAddr (0#28 ++ 0#4), eventWord port we addr 0xF#32, false⟩,
        ⟨"COMMIT", eventWord 0#2 1#1 ctrlAddr (0#28 ++ 1#4), eventWord port we addr 0xF#32, false⟩,
        ⟨"CLRHIST", eventWord 0#2 1#1 ctrlAddr (0#28 ++ 2#4), eventWord port we addr 0xF#32, false⟩,
        ⟨"COMMITCLR", eventWord 0#2 1#1 ctrlAddr (0#28 ++ 3#4), eventWord port we addr 0xF#32, false⟩,
        ⟨"ARM", eventWord 0#2 1#1 ctrlAddr (0#28 ++ 4#4), eventWord port we addr 0xF#32, false⟩,
        ⟨"WRCOEF", eventWord 0#2 1#1 0x20#17 0#32, eventWord port we 0x1FFE0#17 0#32, true⟩,
        ⟨"RDSTATUS", eventWord 0#2 0#1 statusAddr 0#32, eventWord port we addr data, false⟩,
        ⟨"RDFRAMECNT", eventWord 0#2 0#1 frameCntAddr 0#32, eventWord port we addr data, false⟩,
        ⟨"RDCURSOR", eventWord 0#2 0#1 cursorAddr 0#32, eventWord port we addr data, false⟩,
        ⟨"RDCOEF", eventWord 0#2 0#1 0x20#17 0#32, eventWord port we 0x1FFE0#17 data, true⟩,
        ⟨"RDSLOT", eventWord 0#2 0#1 0x10000#17 0#32, eventWord port we 0x10000#17 data, false⟩,
        ⟨"CMDRSVD", eventWord 0#2 1#1 ctrlAddr 0#32, eventWord port we addr 0#32, false⟩,
        ⟨"RDRSVD", eventWord 0#2 0#1 0#17 0#32, eventWord port we 0#17 data, false⟩,
        ⟨"WRRSVD", eventWord 0#2 1#1 0#17 0#32, eventWord port we 0#17 0#32, false⟩ ] := by
  decide

/-- When a row given field by field covers an event word (R100). -/
theorem covers_fields {e : EventWord} {mp p : BitVec 2} {mw w : BitVec 1} {ma a : Addr} {md d : Word}
    {name : String} {kLe4 : Bool} :
    (OpRow.mk name (eventWord p w a d) (eventWord mp mw ma md) kLe4).covers e = true ↔
      evPort e &&& mp = p ∧ evWe e &&& mw = w ∧
        (evAddr e &&& ma = a ∧ (kLe4 = true → ((evAddr e).extractLsb' 0 3).toNat ≤ 4)) ∧
        evData e &&& md = d := by
  rw [OpRow.covers, Bool.and_eq_true, beq_iff_eq, and_eventWord_iff, extractK_eq]
  cases kLe4
  · simp
  · simp only [Bool.not_true, Bool.false_or, decide_eq_true_eq, true_imp_iff]
    tauto

/-- First match wins (R100). -/
theorem find_covers_cons (e : EventWord) (r : OpRow) (rs : List OpRow) :
    ((r :: rs).find? fun r => r.covers e).map OpRow.mnemonic =
      if r.covers e = true then some r.mnemonic
      else (rs.find? fun r => r.covers e).map OpRow.mnemonic := by
  cases h : r.covers e <;> simp [h]

/-- The table over the fields of an event word. -/
theorem tableMnemonic_eventWord (p : BitVec 2) (w : BitVec 1) (a : Addr) (d : Word) :
    tableMnemonic (eventWord p w a d) =
      if p = 3#2 ∧ w = 0#1 ∧ a = 0#17 ∧ d = 0#32 then some "RESET"
      else if p = 1#2 ∧ w = 0#1 ∧ a = 0#17 then some "FRAME"
      else if p = 2#2 ∧ w = 0#1 ∧ a = 0#17 ∧ d.extractLsb' 16 16 = 0#16 then some "TICK"
      else if p = 0#2 ∧ w = 1#1 ∧ a = ctrlAddr ∧ d.extractLsb' 0 4 = 0#4 then some "NOP"
      else if p = 0#2 ∧ w = 1#1 ∧ a = ctrlAddr ∧ d.extractLsb' 0 4 = 1#4 then some "COMMIT"
      else if p = 0#2 ∧ w = 1#1 ∧ a = ctrlAddr ∧ d.extractLsb' 0 4 = 2#4 then some "CLRHIST"
      else if p = 0#2 ∧ w = 1#1 ∧ a = ctrlAddr ∧ d.extractLsb' 0 4 = 3#4 then some "COMMITCLR"
      else if p = 0#2 ∧ w = 1#1 ∧ a = ctrlAddr ∧ d.extractLsb' 0 4 = 4#4 then some "ARM"
      else if p = 0#2 ∧ w = 1#1 ∧ (coefAt a).isSome then some "WRCOEF"
      else if p = 0#2 ∧ w = 0#1 ∧ a = statusAddr ∧ d = 0#32 then some "RDSTATUS"
      else if p = 0#2 ∧ w = 0#1 ∧ a = frameCntAddr ∧ d = 0#32 then some "RDFRAMECNT"
      else if p = 0#2 ∧ w = 0#1 ∧ a = cursorAddr ∧ d = 0#32 then some "RDCURSOR"
      else if p = 0#2 ∧ w = 0#1 ∧ (coefAt a).isSome ∧ d = 0#32 then some "RDCOEF"
      else if p = 0#2 ∧ w = 0#1 ∧ inRingWindow a ∧ d = 0#32 then some "RDSLOT"
      else if p = 0#2 ∧ w = 1#1 ∧ a = ctrlAddr then some "CMDRSVD"
      else if p = 0#2 ∧ w = 0#1 ∧ d = 0#32 then some "RDRSVD"
      else if p = 0#2 ∧ w = 1#1 then some "WRRSVD"
      else none := by
  simp only [tableMnemonic, opRows_fields, find_covers_cons, covers_fields, List.find?_nil,
    Option.map_none, evPort_eventWord, evWe_eventWord, evAddr_eventWord, evData_eventWord,
    BitVec.and_allOnes, BitVec.and_zero, and_tickMask, and_cmdMask, and_coefMask, and_windowMask,
    Bool.false_eq_true, false_imp_iff, true_imp_iff, and_true, true_and, ← coefAt_isSome_iff,
    ← inRingWindow_iff, -BitVec.reduceAllOnes, -BitVec.reduceAppend]

theorem tableMnemonic_command (d : Word) :
    tableMnemonic (eventWord 0#2 1#1 ctrlAddr d) = some (decodeCommand d).mnemonic := by
  have hcoef : coefAt ctrlAddr = none := by decide
  unfold decodeCommand
  dsimp only
  split_ifs <;> simp [tableMnemonic_eventWord, Instr.mnemonic, *]

theorem tableMnemonic_busWrite (a : Addr) (d : Word) :
    tableMnemonic (eventWord 0#2 1#1 a d) = some (decodeWrite a d).mnemonic := by
  obtain rfl | ⟨s, k, rfl⟩ | h := writeAddr_cases a
  · rw [decodeWrite_ctrlAddr, tableMnemonic_command]
  · simp [tableMnemonic_eventWord, (coefAddr_ne s k).1, Instr.mnemonic]
  · obtain ⟨hctrl, hcoef⟩ := writeReserved_iff.1 h
    simp [tableMnemonic_eventWord, decodeWrite_reserved h, hctrl, hcoef, Instr.mnemonic]

theorem tableMnemonic_busRead (a : Addr) :
    tableMnemonic (encodeRead a) = some (decodeRead a).mnemonic := by
  rw [encodeRead, tableMnemonic_eventWord]
  obtain rfl | rfl | rfl | ⟨s, k, rfl⟩ | h | h := readAddr_cases a
  · rfl
  · rfl
  · rfl
  · obtain ⟨-, hstatus, hframe, hcursor⟩ := coefAddr_ne s k
    simp [hstatus, hframe, hcursor, Instr.mnemonic]
  · obtain ⟨-, hstatus, hframe, hcursor, hcoef⟩ := inRingWindow_excludes h
    simp [decodeRead_window h, hstatus, hframe, hcursor, hcoef, h, Instr.mnemonic]
  · obtain ⟨hstatus, hframe, hcursor, hcoef, hwindow⟩ := readReserved_iff.1 h
    simp [decodeRead_reserved h, hstatus, hframe, hcursor, hcoef, hwindow, Instr.mnemonic]

/-- No row covers a word that spells no event (R89, R100). -/
theorem tableMnemonic_invalid {e : EventWord} (h : zeroFieldSet e) : tableMnemonic e = none := by
  rw [← eventWord_fields e, tableMnemonic_eventWord]
  obtain ⟨hp, hw | ha⟩ | ⟨hp, hw, hd⟩ | ⟨hp, hd⟩ | ⟨hp, hd⟩ := h <;> simp [*]

/-- Settles O3, by the form of the word. -/
theorem decodeFollowsOpcodeTable : Obligations.DecodeFollowsOpcodeTable := by
  intro e
  obtain ⟨a, d, rfl⟩ | ⟨a, rfl⟩ | ⟨w, rfl⟩ | ⟨d, rfl⟩ | rfl | hset := eventWord_cases e
  · rw [decode_busWrite, tableMnemonic_busWrite]; rfl
  · rw [decode_busRead, tableMnemonic_busRead]; rfl
  · rw [Laws.RoundTrip.frame w rfl, encode, tableMnemonic_eventWord]
    simp [Decoded.mnemonic, Instr.mnemonic]
  · have hhigh : BitVec.extractLsb' 16 16 (0#16 ++ d : Word) = 0#16 := BitVec.extractLsb'_append_eq_left
    rw [Laws.RoundTrip.tick d rfl, encode, tableMnemonic_eventWord]
    simp [hhigh, Decoded.mnemonic, Instr.mnemonic]
  · rw [Laws.RoundTrip.reset rfl]; decide
  · obtain ⟨r, hr⟩ := decode_invalid_iff.2 hset
    rw [hr, tableMnemonic_invalid hset]; rfl

end Sys2Proof.Machine
end

section
/-! The conversions between samples, frame words and signal words (spec/00_scope.md R11;
spec/30_encoding.md R82, R87, R88). -/

namespace Sys2Proof.Machine

theorem unpack_pack {l r : Int} (hl : -(2 ^ 15) ≤ l) (hl' : l ≤ 2 ^ 15 - 1) (hr : -(2 ^ 15) ≤ r)
    (hr' : r ≤ 2 ^ 15 - 1) : unpack (pack l r) = (l, r) := by
  rw [unpack, leftField_pack, rightField_pack, toInt_trunc16 hl hl', toInt_trunc16 hr hr']

theorem pack_unpack (w : Word) : pack (unpack w).1 (unpack w).2 = w := by
  rw [pack, unpack, trunc_toInt, trunc_toInt, fields_append]

theorem trunc_toNat (n : Nat) (v : Int) : ((trunc n v).toNat : Int) = v % 2 ^ n := by
  have hpos : (0 : Int) < 2 ^ n := by positivity
  rw [trunc, BitVec.toNat_ofInt, Int.toNat_of_nonneg (Int.emod_nonneg _ (by exact_mod_cast hpos.ne'))]
  norm_cast

/-- R82: the right sample stands above the left one. -/
theorem pack_toNat (l r : Int) : ((pack l r).toNat : Int) = r % 2 ^ 16 * 2 ^ 16 + l % 2 ^ 16 := by
  rw [pack, BitVec.toNat_append, ← Nat.shiftLeft_add_eq_or_of_lt (trunc 16 l).isLt, Nat.shiftLeft_eq,
    ← trunc_toNat, ← trunc_toNat]
  norm_cast

/-- Settles O9. -/
theorem packUnpackRoundTrip : Obligations.PackUnpackRoundTrip :=
  ⟨fun _ => rfl, fun l r hl hl' hr hr' => ⟨pack_toNat l r, unpack_pack hl hl' hr hr'⟩, pack_unpack⟩

theorem toSig_eq (s : Int) : toSig s = s * 2 ^ 13 := rfl

/-- Settles O10: the product of a sample and `2^13` is inside the range of a signal word. -/
theorem inputConversionIsExact : Obligations.InputConversionIsExact := by
  intro s hl hu
  rw [toSig_eq]
  exact ⟨rfl, by omega, by omega, toInt_trunc32 (by omega) (by omega)⟩

/-- `sat` is the limiter to the signed range. -/
theorem sat_eq_max_min (n : Nat) (v : Int) :
    sat n v = max (-(2 ^ (n - 1))) (min (2 ^ (n - 1) - 1) v) := by
  have h : (0 : Int) < 2 ^ (n - 1) := by positivity
  unfold sat
  split_ifs <;> omega

theorem toS16_eq (v : Int) : toS16 v = max (-32768) (min 32767 (rhu v 13)) := sat_eq_max_min 16 _

/-- R88: the rounding, a half going up. -/
theorem rhu13_bounds (v : Int) : 8192 * rhu v 13 ≤ v + 4096 ∧ v + 4096 < 8192 * rhu v 13 + 8192 :=
  rhu_bounds v 13

/-- Settles O11: `toS16` limits the rounded value, and `ISAT` speaks of the stages alone. -/
theorem outputConversionRoundsAndClamps : Obligations.OutputConversionRoundsAndClamps := by
  refine ⟨fun v _ _ => ?_, fun s w => ⟨_, exec_eq _ s, processFrame_isat_iff s w⟩⟩
  obtain ⟨hfloor, hceil⟩ := rhu13_bounds v
  refine ⟨⟨rhu v 13, hfloor, hceil, toS16_eq v⟩, fun hlow => ?_, fun hhigh => ?_⟩ <;>
    rw [toS16_eq] <;> omega

end Sys2Proof.Machine
end

section
/-! A trace whose words all spell events (spec/30_encoding.md R89; spec/60_exceptions.md R230). -/

namespace Sys2Proof.Machine

/-- Settles O55: the step performs the next word, if there is one, and takes nothing else off the trace. -/
theorem spelledTraceIsNeverRefused : Obligations.SpelledTraceIsNeverRefused := by
  intro s h
  cases hp : s.pending with
  | nil => exact ⟨s, step_of_pending_nil hp, h⟩
  | cons e rest =>
    rw [State.traceSpellsEvents, hp, List.forall_mem_cons] at h
    obtain ⟨⟨i, hi⟩, hrest⟩ := h
    refine ⟨_, (step_of_decode_ok hp hi).trans (exec_eq i _), ?_⟩
    rwa [State.traceSpellsEvents, after_pending]

end Sys2Proof.Machine
end

section
/-! The stage arithmetic: rounding, saturation and one step of a stage (spec/40_filter.md R120, R121,
R133). -/

namespace Sys2Proof.Machine

/-! ## Rounding and saturation -/

theorem two_pow_eq_two_mul_half {s : Nat} (hs : 1 ≤ s) : (2 : Int) ^ s = 2 * 2 ^ (s - 1) := by
  rw [← pow_succ', Nat.sub_add_cancel hs]

/-- The rounding answers `r` exactly on the unit around `r`, its lower end included: a half goes up. -/
theorem rhu_eq_iff {v r : Int} {s : Nat} (hs : 1 ≤ s) :
    rhu v s = r ↔ (2 * r - 1) * 2 ^ (s - 1) ≤ v ∧ v < (2 * r + 1) * 2 ^ (s - 1) := by
  have hunit := two_pow_eq_two_mul_half hs
  constructor
  · rintro rfl
    obtain ⟨hl, hu⟩ := rhu_bounds v s
    rw [hunit] at hl hu
    constructor <;> linarith
  · rintro ⟨hl, hu⟩
    apply rhu_unique <;> rw [hunit] <;> linarith

/-- R121 law 1. -/
theorem rhu_mul_two_pow (v : Int) {s : Nat} (hs : 1 ≤ s) : rhu (v * 2 ^ s) s = v := by
  have hpos : (0 : Int) < 2 ^ (s - 1) := by positivity
  rw [rhu_eq_iff hs, two_pow_eq_two_mul_half hs]
  constructor <;> linarith

/-- A value that is `m` and exactly one half is rounded up (R121 law 2). -/
theorem rhu_half (m : Int) {s : Nat} (hs : 1 ≤ s) : rhu ((2 * m + 1) * 2 ^ (s - 1)) s = m + 1 := by
  have hpos : (0 : Int) < 2 ^ (s - 1) := by positivity
  rw [rhu_eq_iff hs]
  constructor <;> linarith

/-- R121 law 3. -/
theorem rhu_mono {u v : Int} (s : Nat) (h : u ≤ v) : rhu u s ≤ rhu v s :=
  Int.ediv_le_ediv (by positivity) (by omega)

theorem sat_mono {u v : Int} (n : Nat) (h : u ≤ v) : sat n u ≤ sat n v := by
  rw [sat_eq_max_min, sat_eq_max_min]
  exact max_le_max le_rfl (min_le_min le_rfl h)

theorem sat_sat (n : Nat) (v : Int) : sat n (sat n v) = sat n v :=
  sat_of_mem (sat_range n v).1 (sat_range n v).2

/-- Off the halves the rounding is odd. -/
theorem rhu_neg_of_not_half {v : Int} {s : Nat} (hs : 1 ≤ s)
    (h : ∀ m : Int, v ≠ (2 * m + 1) * 2 ^ (s - 1)) : rhu (-v) s = -rhu v s := by
  obtain ⟨hl, hu⟩ := (rhu_eq_iff hs).1 (rfl : rhu v s = rhu v s)
  have hl' := lt_of_le_of_ne hl fun he => h (rhu v s - 1) (by linarith)
  rw [rhu_eq_iff hs]
  constructor <;> linarith

/-- R121 law 4: the rounding fails to be odd exactly at the halves, both of which it takes up. -/
theorem rhu_neg_ne_iff (v : Int) {s : Nat} (hs : 1 ≤ s) :
    rhu (-v) s ≠ -rhu v s ↔ ∃ m : Int, v = (2 * m + 1) * 2 ^ (s - 1) := by
  constructor
  · intro hne
    by_contra hhalf
    exact hne (rhu_neg_of_not_half hs (not_exists.1 hhalf))
  · rintro ⟨m, rfl⟩
    have hneg : -((2 * m + 1) * 2 ^ (s - 1) : Int) = (2 * (-m - 1) + 1) * 2 ^ (s - 1) := by ring
    rw [hneg, rhu_half _ hs, rhu_half _ hs]
    omega

/-! ## One step of a stage -/

theorem abs_toInt_mul_toInt_le (a b : Word) : |a.toInt * b.toInt| ≤ 2 ^ 62 := by
  obtain ⟨hal, hau⟩ := word_toInt_range a
  obtain ⟨hbl, hbu⟩ := word_toInt_range b
  calc |a.toInt * b.toInt| = |a.toInt| * |b.toInt| := abs_mul _ _
    _ ≤ 2 ^ 31 * 2 ^ 31 := mul_le_mul (abs_le.2 ⟨hal, by omega⟩) (abs_le.2 ⟨hbl, by omega⟩)
        (abs_nonneg _) (by norm_num)
    _ = 2 ^ 62 := by norm_num

/-- R121 law 5: five products of two words. -/
theorem abs_stageAcc_le (c : CoefSet) (h : History) (x : Word) : |stageAcc c h x| ≤ 5 * 2 ^ 62 := by
  have h0 := abs_le.1 (abs_toInt_mul_toInt_le c.b0 x)
  have h1 := abs_le.1 (abs_toInt_mul_toInt_le c.b1 h.x1)
  have h2 := abs_le.1 (abs_toInt_mul_toInt_le c.b2 h.x2)
  have h3 := abs_le.1 (abs_toInt_mul_toInt_le c.a1 h.y1)
  have h4 := abs_le.1 (abs_toInt_mul_toInt_le c.a2 h.y2)
  rw [stageAcc, abs_le]
  omega

theorem stageRounded_bounds (c : CoefSet) (h : History) (x : Word) :
    2 ^ 30 * stageRounded c h x ≤ stageAcc c h x + 2 ^ 29 ∧
      stageAcc c h x + 2 ^ 29 < 2 ^ 30 * stageRounded c h x + 2 ^ 30 := rhu_bounds _ 30

theorem biquad_y_toInt (c : CoefSet) (h : History) (x : Word) :
    (biquad c h x).y.toInt = sat 32 (stageRounded c h x) := toInt_trunc32_sat _

/-- R120: a stage that does not saturate answers its rounded result. -/
theorem biquad_y_toInt_of_not_saturated {c : CoefSet} {h : History} {x : Word}
    (hs : (biquad c h x).saturated = false) : (biquad c h x).y.toInt = stageRounded c h x := by
  rw [biquad_saturated, decide_eq_false_iff_not, not_ne_iff] at hs
  rw [biquad_y_toInt, ← hs]

/-- R121 law 6 in terms of the accumulator. -/
theorem biquad_saturated_iff_acc (c : CoefSet) (h : History) (x : Word) :
    (biquad c h x).saturated = true ↔
      2 ^ 61 - 2 ^ 29 ≤ stageAcc c h x ∨ stageAcc c h x < -(2 ^ 61) - 2 ^ 29 := by
  obtain ⟨hl, hu⟩ := stageRounded_bounds c h x
  rw [biquad_saturated_iff, stageOverflows]
  omega

/-- The half unit of a gain of one half goes up on both sides of zero (R121 law 4). -/
theorem biquad_not_odd : ∃ (c : CoefSet) (x y : Word), x.toInt = -y.toInt ∧
    (biquad c .zero x).y.toInt ≠ -(biquad c .zero y).y.toInt :=
  ⟨⟨0x20000000#32, 0#32, 0#32, 0#32, 0#32⟩, 1#32, 0xFFFFFFFF#32, by decide, by decide⟩

/-- Settles O12, law by law. -/
theorem stageArithmeticLaws : Obligations.StageArithmeticLaws := by
  refine ⟨fun v s hs => rhu_mul_two_pow v hs, fun v s hs => ?_,
    ⟨fun u v s _ h => rhu_mono s h, fun u v n _ h => sat_mono n h, fun v n _ => sat_sat n v⟩,
    ⟨fun v s hs => rhu_neg_ne_iff v hs, biquad_not_odd⟩, fun c h x => ?_, fun c h x => ?_⟩
  · obtain ⟨hl, hu⟩ := rhu_bounds v s
    have hunit := two_pow_eq_two_mul_half hs
    exact ⟨by omega, by omega, by simpa using rhu_half 0 hs, by simpa using rhu_half (-1) hs,
      rhu_half 1 hs, by simpa using rhu_half (-2) hs⟩
  · obtain ⟨hl, hu⟩ := stageRounded_bounds c h x
    have hacc := abs_stageAcc_le c h x
    obtain ⟨haccl, haccu⟩ := abs_le.1 hacc
    exact ⟨hacc, by norm_num, by omega, by omega, abs_le.2 ⟨by omega, by omega⟩⟩
  · exact ⟨(biquad_saturated_iff c h x).trans or_comm, biquad_saturated_iff_acc c h x⟩

/-- Settles O13: the accumulator is `stageAcc`, its rounding `stageRounded`. -/
theorem stageComputesRecurrence : Obligations.StageComputesRecurrence := by
  intro c h x
  obtain ⟨hl, hu⟩ := stageRounded_bounds c h x
  refine ⟨stageAcc c h x, stageRounded c h x, rfl, hl, by omega,
    (biquad_y_toInt c h x).trans (sat_eq_max_min 32 _), ?_, rfl⟩
  rw [biquad_y_toInt, biquad_saturated, decide_eq_true_iff]

/-- Settles O14: without saturation and without the clamp nothing but the rounding is left. -/
theorem roundingErrorsAreLocal : Obligations.RoundingErrorsAreLocal := by
  refine ⟨fun c h x hs => ?_, fun v hl hu => ?_⟩
  · obtain ⟨hfloor, hceil⟩ := stageRounded_bounds c h x
    rw [biquad_y_toInt_of_not_saturated hs]
    have hhalf : |2 ^ 30 * stageRounded c h x - stageAcc c h x| ≤ 2 ^ 29 :=
      abs_le.2 ⟨by omega, by omega⟩
    omega
  · obtain ⟨hfloor, hceil⟩ := rhu13_bounds v
    have hclamp : toS16 v = rhu v 13 := by rw [toS16_eq]; omega
    have hhalf : |2 ^ 13 * toS16 v - v| ≤ 2 ^ 12 := abs_le.2 ⟨by omega, by omega⟩
    omega

end Sys2Proof.Machine
end

section
/-! `FRAME`: the whole next state, the two lanes, silence and the identity set (spec/40_filter.md R122,
R123, R127, R128, R139, R141). -/

namespace Sys2Proof.Machine

/-! ## The lanes -/

/-- Settles O15: `processFrame` with its lanes written out. -/
theorem frameRunsBothCascades : Obligations.FrameRunsBothCascades :=
  fun s w => exec_eq (.frame w) s

/-- What a left lane depends on (R123). -/
theorem leftLane_congr {s s' : State} {w w' : Word} (hchp : s.coefA.hpl = s'.coefA.hpl)
    (hclp : s.coefA.lpl = s'.coefA.lpl) (hhhp : s.hist.hpl = s'.hist.hpl)
    (hhlp : s.hist.lpl = s'.hist.lpl) (hw : leftField w = leftField w') :
    s.leftLane w = s'.leftLane w' := by
  rw [State.leftLane, State.leftLane, unpack, unpack, hchp, hclp, hhhp, hhlp, hw]

theorem rightLane_congr {s s' : State} {w w' : Word} (hchp : s.coefA.hpr = s'.coefA.hpr)
    (hclp : s.coefA.lpr = s'.coefA.lpr) (hhhp : s.hist.hpr = s'.hist.hpr)
    (hhlp : s.hist.lpr = s'.hist.lpr) (hw : rightField w = rightField w') :
    s.rightLane w = s'.rightLane w' := by
  rw [State.rightLane, State.rightLane, unpack, unpack, hchp, hclp, hhhp, hhlp, hw]

/-- Settles O16: a frame's left histories and left output field are those of the left lane, the right ones
those of the right lane. -/
theorem lanesAreIndependent : Obligations.LanesAreIndependent := by
  intro s s' w w'
  refine ⟨_, _, _, _, exec_eq (.frame w) s, exec_eq (.frame w') s', rfl, rfl,
    fun hchp hclp hhhp hhlp hw => ?_, fun hchp hclp hhhp hhlp hw => ?_, rfl, rfl⟩
  · have hlane := leftLane_congr hchp hclp hhhp hhlp hw
    simp only [after, State.processFrame_hist, leftField_pack, hlane, and_self]
  · have hlane := rightLane_congr hchp hclp hhhp hhlp hw
    simp only [after, State.processFrame_hist, rightField_pack, hlane, and_self]

/-! ## Silence -/

/-- A stage at rest stays at rest, whatever its coefficients (R139). -/
theorem biquad_silence (c : CoefSet) : biquad c .zero 0#32 = ⟨0#32, false, .zero⟩ := by
  have hround : stageRounded c .zero 0#32 = 0 := by
    simp [stageRounded, stageAcc, History.zero, rhu, Config.coefF]
  simp only [biquad, hround]
  rfl

theorem lane_silence (chp clp : CoefSet) :
    lane chp clp .zero .zero 0 = ⟨⟨0#32, false, .zero⟩, ⟨0#32, false, .zero⟩, 0⟩ := by
  have hin : trunc 32 (toSig 0) = 0#32 := by decide
  have hout : toS16 (0#32 : Word).toInt = 0 := by decide
  simp only [lane, hin, biquad_silence, hout]

/-- R139: a silent frame on a zero history only emits silence and is counted. -/
theorem processFrame_silence {s : State} (h : s.hist = .zero) :
    s.processFrame 0#32 = { s with frameCnt := s.frameCnt + 1#32, out := s.out ++ [0#32] } := by
  have hin : unpack 0#32 = (0, 0) := by decide
  have hout : pack 0 0 = 0#32 := by decide
  have hl : s.leftLane 0#32 = ⟨⟨0#32, false, .zero⟩, ⟨0#32, false, .zero⟩, 0⟩ := by
    rw [State.leftLane, h, hin]; exact lane_silence _ _
  have hr : s.rightLane 0#32 = ⟨⟨0#32, false, .zero⟩, ⟨0#32, false, .zero⟩, 0⟩ := by
    rw [State.rightLane, h, hin]; exact lane_silence _ _
  have hzero : (⟨.zero, .zero, .zero, .zero⟩ : Histories) = s.hist := h.symm
  simp [State.processFrame, State.emit, hl, hr, hout, hzero, isatAfter]

/-- R139 over any number of silent frames. -/
theorem afterAll_silence {s : State} (h : s.hist = .zero) (n : Nat) :
    afterAll (List.replicate n (.frame 0#32)) s =
      { s with frameCnt := s.frameCnt + BitVec.ofNat 32 n, out := s.out ++ List.replicate n 0#32 } := by
  induction n generalizing s with
  | zero => simp
  | succ n ih =>
    rw [List.replicate_succ, afterAll_cons, after, processFrame_silence h, ih]
    · simp [List.replicate_succ, BitVec.ofNat_add, BitVec.add_assoc, BitVec.add_comm 1#32]
    · exact h

/-- R33, R127, R128: the three operations that clear the history. -/
theorem after_hist_zero {i : Instr} (h : i = .reset ∨ i = .clrhist ∨ i = .commitclr) (s : State) :
    (after i s).hist = .zero := by
  obtain rfl | rfl | rfl := h <;> rfl

/-- Settles O18, by induction on the number of silent frames. -/
theorem silenceStaysSilent : Obligations.SilenceStaysSilent := by
  refine ⟨fun i s hi => ⟨_, exec_eq i s, after_hist_zero hi s⟩, fun s n h => ?_⟩
  exact ⟨_, (execAll_afterAll _ s).trans (congrArg _ (afterAll_silence h n)), rfl, rfl, rfl, rfl⟩

/-- A silent frame right after an operation that clears the history emits silence. -/
theorem out_of_silent_frame_after {i : Instr} (h : i = .clrhist ∨ i = .commitclr) (s : State) :
    ∃ t, execAll [i, .frame 0#32] s = .next t ∧ t.out = s.out ++ [0#32] := by
  have hsilent := processFrame_silence (after_hist_zero (.inr h) s)
  refine ⟨_, execAll_afterAll _ s, ?_⟩
  rw [afterAll_cons, afterAll_cons, afterAll_nil, after, hsilent]
  obtain rfl | rfl := h <;> rfl

/-- Settles O26: `clearHist` writes the history alone, and the frame after it finds it zero. -/
theorem clrhistZeroesHistory : Obligations.ClrhistZeroesHistory :=
  ⟨rfl, fun s => ⟨exec_eq .clrhist s, out_of_silent_frame_after (.inl rfl) s⟩⟩

/-- Settles O27: `COMMITCLR` is `publish` and then `clearHist`, as the two operations one by one are. -/
theorem commitclrIsBothAtOnce : Obligations.CommitclrIsBothAtOnce :=
  ⟨rfl, fun s => ⟨exec_eq .commitclr s, rfl, out_of_silent_frame_after (.inr rfl) s⟩⟩

/-! ## The identity set -/

/-- The set that passes its input on: `b0 = 1` and the rest zero (R141). -/
def CoefSet.identity : CoefSet := ⟨0x40000000#32, 0#32, 0#32, 0#32, 0#32⟩

/-- R141: the one rounding of the stage has nothing to round. -/
theorem biquad_identity (h : History) (x : Word) :
    biquad .identity h x = ⟨x, false, ⟨x, h.x1, x, h.y1⟩⟩ := by
  have hacc : stageAcc .identity h x = x.toInt * 2 ^ 30 := by
    have hone : (0x40000000#32 : Word).toInt = 2 ^ 30 := by decide
    simp [stageAcc, CoefSet.identity, hone, mul_comm]
  have hround : stageRounded .identity h x = x.toInt := by
    rw [stageRounded, hacc]; exact rhu_mul_two_pow _ (by norm_num)
  have hsat : sat 32 x.toInt = x.toInt := sat_of_mem (word_toInt_range x).1 (word_toInt_range x).2
  simp [biquad, hround, hsat, Config.sigW]

/-- R141: the output conversion undoes the input conversion. -/
theorem toS16_toSig {v : Int} (hl : -(2 ^ 15) ≤ v) (hu : v ≤ 2 ^ 15 - 1) : toS16 (toSig v) = v := by
  have hround : rhu (toSig v) 13 = v := rhu_mul_two_pow v (s := 13) (by norm_num)
  rw [toS16_eq, hround]
  omega

theorem lane_identity_sample (hhp hlp : History) (c : Code) :
    (lane .identity .identity hhp hlp c.toInt).sample = c.toInt := by
  obtain ⟨hl, hu⟩ := code_toInt_range c
  simp only [lane, biquad_identity]
  rw [toInt_trunc32_toSig, ← toSig_eq, toS16_toSig hl hu]

theorem lane_identity_saturated (hhp hlp : History) (x : Int) :
    (lane .identity .identity hhp hlp x).hp.saturated = false ∧
      (lane .identity .identity hhp hlp x).lp.saturated = false := by
  simp only [lane, biquad_identity, and_self]

/-- Settles O19: each lane answers its own sample, and no stage saturates. -/
theorem identitySetPassesFrames : Obligations.IdentitySetPassesFrames := by
  refine ⟨fun h x => ?_, fun v hl hu => toS16_toSig hl hu, fun s w hc => ?_⟩
  · have hstage := biquad_identity h x
    exact ⟨congrArg StageOut.y hstage, congrArg StageOut.saturated hstage⟩
  · have hl : s.leftLane w = lane .identity .identity s.hist.hpl s.hist.lpl (leftField w).toInt := by
      rw [State.leftLane, show s.coefA.hpl = .identity from hc .hpl,
        show s.coefA.lpl = .identity from hc .lpl]; rfl
    have hr : s.rightLane w = lane .identity .identity s.hist.hpr s.hist.lpr (rightField w).toInt := by
      rw [State.rightLane, show s.coefA.hpr = .identity from hc .hpr,
        show s.coefA.lpr = .identity from hc .lpr]; rfl
    refine ⟨_, exec_eq _ s, ?_, ?_⟩
    · rw [after, State.processFrame_out, hl, hr, lane_identity_sample, lane_identity_sample]
      exact congrArg (s.out ++ [·]) (pack_unpack w)
    · obtain ⟨hhpl, hlpl⟩ := lane_identity_saturated s.hist.hpl s.hist.lpl (leftField w).toInt
      obtain ⟨hhpr, hlpr⟩ := lane_identity_saturated s.hist.hpr s.hist.lpr (rightField w).toInt
      rw [after, State.processFrame_isat, hl, hr, hhpl, hlpl, hhpr, hlpr]
      exact Bool.or_false _

end Sys2Proof.Machine
end

section
/-! The coefficient and command operations of the filter and its status reads (spec/40_filter.md R124 to
R126, R129 to R132). -/

namespace Sys2Proof.Machine

/-! ## Coefficient registers -/

/-- R95: the number of a coefficient register's address. -/
theorem coefAddr_eq_ofNat (st : Stage) (k : CoefIx) :
    BitVec.ofNat 17 (0x00020 + 8 * (stageCode st).toNat + (coefIxCode k).toNat) = coefAddr st k := by
  cases st <;> cases k <;> rfl

/-- Settles O23: the address is `coefAddr st k`, and `Bank.put` writes that one word. -/
theorem wrcoefWritesOneShadowWord : Obligations.WrcoefWritesOneShadowWord := by
  intro st k v s
  refine ⟨_, ?_, exec_eq _ s, Bank.get_put_same _ st k v, fun st' k' h => Bank.get_put_other _ v h, rfl⟩
  rw [coefAddr_eq_ofNat, decode_busWrite, decodeWrite_coefAddr]

/-- R125: but for `WRCOEF` every operation leaves two equal banks equal. -/
theorem after_banks_eq {i : Instr} (hi : ∀ st k v, i ≠ .wrcoef st k v) {s : State}
    (h : s.coefA = s.coefS) : (after i s).coefA = (after i s).coefS := by
  cases i
  case wrcoef st k v => exact absurd rfl (hi st k v)
  all_goals simp [after, h]

/-- Settles O24: a commit makes the banks equal, and they stay so until the next `WRCOEF`. -/
theorem rdcoefReturnsShadowWord : Obligations.RdcoefReturnsShadowWord := by
  intro st k s
  refine ⟨?_, exec_eq _ s, fun c is hc hw => ?_⟩
  · rw [coefAddr_eq_ofNat]
    exact (decode_busRead _).trans (congrArg _ (decodeRead_coefAddr st k))
  · have hcommit : (after c s).coefA = (after c s).coefS := by obtain rfl | rfl := hc <;> rfl
    have heq : (afterAll is (after c s)).coefA = (afterAll is (after c s)).coefS :=
      afterAll_keeps (P := fun u => u.coefA = u.coefS) hcommit fun i hi _ hu => after_banks_eq (hw i hi) hu
    exact ⟨_, execAll_afterAll _ s, congrArg (Bank.get · st k) heq⟩

/-- Settles O25: `publish` is the whole of `COMMIT`. -/
theorem commitPublishesShadowBank : Obligations.CommitPublishesShadowBank :=
  ⟨rfl, fun s => ⟨_, exec_eq .commit s, fun _ _ => rfl, rfl⟩⟩

/-! ## Commands that do nothing -/

/-- Settles O28: a `CTRL` write is decoded by its command field, and the codes from 5 on are reserved. -/
theorem nopAndReservedCommandsDoNothing : Obligations.NopAndReservedCommandsDoNothing := by
  refine ⟨rfl, fun c hc => ?_, fun s => ⟨exec_eq .nop s, fun c => exec_eq (.cmdrsvd c) s⟩⟩
  have hreserved := decodeCommand_reserved (d := 0#28 ++ c) (by rwa [command_field])
  rw [command_field] at hreserved
  exact (decode_busWrite _ _).trans (congrArg _ ((decodeWrite_ctrlAddr _).trans hreserved))

/-! ## Status reads -/

/-- R92, R130: the status word as a number. -/
theorem statusWord_toNat (isat : Bool) (p : Phase) :
    (statusWord isat p).toNat = (if isat then 4 else 0) + (phaseCode p).toNat := by
  cases isat <;> cases p <;> rfl

/-- Settles O29: the value is the status word, by the code of each phase. -/
theorem statusReadsFlagAndPhase : Obligations.StatusReadsFlagAndPhase := by
  refine ⟨rfl, fun s => ⟨statusWord s.isat s.rphase, ?_, exec_eq .rdstatus s⟩⟩
  rw [statusWord_toNat]
  cases s.rphase <;> rfl

theorem afterAll_frameCnt {is : List Instr} (hr : ∀ i ∈ is, i ≠ .reset) (s : State) :
    (afterAll is s).frameCnt = s.frameCnt + BitVec.ofNat 32 (frameCount is) := by
  obtain ⟨t, ht, hcnt⟩ := execAll_frameCnt hr s
  obtain rfl : afterAll is s = t := by simpa [execAll_afterAll] using ht
  exact hcnt

/-- A list of operations appends to the read data and moves none of it (R12). -/
theorem afterAll_reads (is : List Instr) (s : State) : ∃ rs, (afterAll is s).reads = s.reads ++ rs := by
  obtain ⟨t, -, rs, ht, -, -, hreads, -⟩ := execAll_out_reads is s
  obtain rfl : afterAll is s = t := by simpa [execAll_afterAll] using ht
  exact ⟨rs, hreads⟩

/-- Settles O30: the second read sees the counter moved by the frames of the list. -/
theorem frameCountReadsDifferByFrames : Obligations.FrameCountReadsDifferByFrames := by
  refine ⟨rfl, fun s => exec_eq .rdframecnt s, fun s is hr => ?_⟩
  obtain ⟨mid, hmid⟩ := afterAll_reads is (s.answer s.frameCnt)
  refine ⟨_, mid, execAll_afterAll _ s, ?_⟩
  rw [List.cons_append, afterAll_cons, afterAll_append, afterAll_cons, afterAll_nil, after, after,
    State.answer_reads, hmid, afterAll_frameCnt hr]
  rfl

end Sys2Proof.Machine
end

section
/-! The host's coefficients in real numbers: the quantiser and the ranges of the constructed sets
(spec/40_filter.md R134 to R136). -/

namespace Sys2Proof.Machine

/-! ## The quantiser -/

/-- R135: a nearest integer is within one half. -/
theorem abs_roundAway_sub_le (x : ℝ) : |(roundAway x : ℝ) - x| ≤ 1 / 2 := by
  have hfloor := Int.floor_le (x + 1 / 2)
  have hceil := Int.lt_floor_add_one (x + 1 / 2)
  have hfloor' := Int.floor_le (-x + 1 / 2)
  have hceil' := Int.lt_floor_add_one (-x + 1 / 2)
  rw [roundAway, abs_le]
  split_ifs
  · constructor <;> linarith
  · push_cast
    constructor <;> linarith

/-- Rounding a value between two integers stays between them. -/
theorem roundAway_mem {x : ℝ} {l u : Int} (hl : (l : ℝ) ≤ x) (hu : x ≤ u) :
    l ≤ roundAway x ∧ roundAway x ≤ u := by
  obtain ⟨hbelow, habove⟩ := abs_le.1 (abs_roundAway_sub_le x)
  constructor
  · have : (l : ℝ) < (roundAway x + 1 : Int) := by push_cast; linarith
    exact Int.lt_add_one_iff.1 (by exact_mod_cast this)
  · have : (roundAway x : ℝ) < (u + 1 : Int) := by push_cast; linarith
    exact Int.lt_add_one_iff.1 (by exact_mod_cast this)

/-- Inside the format the quantiser is the rounding alone: it does not saturate (R135). -/
theorem q30_toInt {c : ℝ} (hl : -2 ≤ c) (hu : c ≤ 2 - 1 / 2 ^ 30) :
    (q30 c).toInt = roundAway (c * 2 ^ 30) := by
  obtain ⟨hlow, hhigh⟩ := roundAway_mem (x := c * 2 ^ 30) (l := -(2 ^ 31)) (u := 2 ^ 31 - 1)
    (by push_cast; linarith) (by push_cast; linarith)
  exact (toInt_trunc32_sat _).trans (sat_of_mem hlow hhigh)

/-- Settles O57: inside the format the coefficient word is the nearest integer. -/
theorem quantiserIsNearest : Obligations.QuantiserIsNearest := by
  intro c hl hu
  rw [q30_toInt hl hu]
  exact (le_div_iff₀' two_pos).1 (abs_roundAway_sub_le _)

/-! ## The constructed sets -/

/-- Below half the sample rate `omega` is inside the upper half circle (R134). -/
theorem omegaAt_mem {f fs : ℝ} (hf : 0 < f) (hfs : f < fs / 2) :
    0 < omegaAt f fs ∧ omegaAt f fs < Real.pi := by
  have hpos : 0 < fs := by linarith
  have hpi := Real.pi_pos
  refine ⟨by unfold omegaAt; positivity, ?_⟩
  rw [omegaAt, div_lt_iff₀ hpos]
  nlinarith

theorem cos_mem_of_upper {ω : ℝ} (h0 : 0 < ω) (hpi : ω < Real.pi) : -1 < Real.cos ω ∧ Real.cos ω < 1 := by
  have hsin := Real.sin_pos_of_pos_of_lt_pi h0 hpi
  have hunit := Real.sin_sq_add_cos_sq ω
  exact abs_lt.1 ((sq_lt_one_iff_abs_lt_one _).1 (by nlinarith))

theorem alphaAt_mem {f fs : ℝ} (hf : 0 < f) (hfs : f < fs / 2) :
    0 < alphaAt f fs ∧ alphaAt f fs ≤ 1 / √2 := by
  obtain ⟨h0, hpi⟩ := omegaAt_mem hf hfs
  have hsin := Real.sin_pos_of_pos_of_lt_pi h0 hpi
  rw [alphaAt_eq]
  exact ⟨by positivity, div_le_div_of_nonneg_right (Real.sin_le_one _) (by positivity)⟩

/-- `1/√2` to the digits that R136's bound on `a2` needs. -/
theorem one_div_sqrt_two_le : 1 / √2 ≤ (70715 / 100000 : ℝ) := by
  rw [div_le_iff₀ (by positivity), ← div_le_iff₀' (by norm_num)]
  exact Real.le_sqrt_of_sq_le (by norm_num)

section
variable {u α : ℝ} (hα : 0 < α)
include hα

/-- The feed-forward coefficients of both sets, where `u` is `1 + cos omega` or `1 - cos omega`. -/
theorem feedForward_mem (h0 : 0 < u) (h2 : u < 2) :
    (0 < u / 2 / (1 + α) ∧ u / 2 / (1 + α) < 1) ∧ 0 < u / (1 + α) ∧ u / (1 + α) < 2 := by
  refine ⟨⟨by positivity, ?_⟩, by positivity, ?_⟩ <;> rw [div_lt_iff₀ (by positivity)] <;> linarith

theorem feedback1_mem (hl : -1 < u) (hu : u < 1) : -2 < -2 * u / (1 + α) ∧ -2 * u / (1 + α) < 2 := by
  rw [lt_div_iff₀ (by positivity), div_lt_iff₀ (by positivity)]
  constructor <;> linarith

/-- R136: `a2` falls as `alpha` grows, down to its value at `1/√2`. -/
theorem feedback2_mem (h : α ≤ 1 / √2) :
    1715 / 10000 ≤ (1 - α) / (1 + α) ∧ (1 - α) / (1 + α) < 1 := by
  have hbound := h.trans one_div_sqrt_two_le
  rw [le_div_iff₀ (by positivity), div_lt_iff₀ (by positivity)]
  constructor <;> linarith

end

/-- Settles O58: the highpass `b1` is `-2·b0`, the lowpass `b1` is `2·b0`. -/
theorem constructedCoefficientsFit : Obligations.ConstructedCoefficientsFit := by
  intro f fs hf hfs
  obtain ⟨hα, hα'⟩ := alphaAt_mem hf hfs
  obtain ⟨h0, hpi⟩ := omegaAt_mem hf hfs
  obtain ⟨hcl, hcu⟩ := cos_mem_of_upper h0 hpi
  obtain ⟨⟨hhpl, hhpu⟩, hhp1l, hhp1u⟩ :=
    feedForward_mem (u := 1 + Real.cos (omegaAt f fs)) hα (by linarith) (by linarith)
  obtain ⟨⟨hlpl, hlpu⟩, hlp1l, hlp1u⟩ :=
    feedForward_mem (u := 1 - Real.cos (omegaAt f fs)) hα (by linarith) (by linarith)
  have hb1 : (highpassAt f fs).b1 = -((1 + Real.cos (omegaAt f fs)) / (1 + alphaAt f fs)) := neg_div _ _
  obtain ⟨ha1l, ha1u⟩ := feedback1_mem hα hcl hcu
  obtain ⟨ha2l, ha2u⟩ := feedback2_mem hα hα'
  refine ⟨⟨alphaAt_eq f fs, hα, hα', hcl, hcu⟩, ⟨hhpl, hhpu, rfl, ?_, ?_⟩,
    ⟨hlpl, hlpu, rfl, hlp1l, hlp1u⟩, rfl, rfl, ha1l, ha1u, ha2l, ha2u⟩ <;>
    rw [hb1] <;> linarith

end Sys2Proof.Machine
end

section
/-! The ring's operations: what `ARM`, `TICK`, `RDCURSOR` and `RDSLOT` do, and the slot sequence across the
wrap of the cursor (spec/41_ring.md R161 to R165, R168; spec/70_reset_and_hazards.md R262). -/

namespace Sys2Proof.Machine

/-! ## The samples in the ring -/

/-- The samples `ds` have been written since the last `RESET`, in this order, and the ring holds the last
`CAP` of them, each in the slot of its index (R166). -/
structure State.holdsSamples (s : State) (ds : List Code) : Prop where
  /-- The cursor counts the samples. -/
  cursor_eq : s.cursor = BitVec.ofNat 32 ds.length
  /-- Each of the last `CAP` samples is in the slot of its index. -/
  read_recent : ∀ n, ds.length ≤ n + s.cap → n < ds.length → Memory.read s.ring (n % s.cap) = ds[n]?
  /-- No other slot has been written. -/
  read_unwritten : ∀ n, ds.length ≤ n → n < s.cap → Memory.read s.ring n = none

/-- After a `RESET` no sample has been written (R262). -/
theorem doReset_holdsSamples (s : State) : s.doReset.holdsSamples [] where
  cursor_eq := rfl
  read_recent _ _ hn := absurd hn (Nat.not_lt_zero _)
  read_unwritten _ _ _ := Memory.read_stale ..

theorem State.holdsSamples.congr {s t : State} {ds : List Code} (h : s.holdsSamples ds)
    (hcur : t.cursor = s.cursor) (hring : t.ring = s.ring) (haw : t.ringAw = s.ringAw) :
    t.holdsSamples ds := by
  obtain ⟨hcount, hread, hfree⟩ := h
  have hcap : t.cap = s.cap := congrArg RingAw.cap haw
  exact ⟨hcur.trans hcount, hring ▸ hcap ▸ hread, hring ▸ hcap ▸ hfree⟩

/-- R28, R165: the next sample goes to the slot of its index. -/
theorem State.holdsSamples.writeSlot_eq {s : State} {ds : List Code} (h : s.holdsSamples ds) :
    writeSlot s.ringAw s.cursor = ds.length % s.cap := by
  simpa [h.cursor_eq, State.cap] using writeSlot_add s.ringAw 0#32 ds.length

/-- Two indices less than `CAP` apart name different slots. -/
theorem mod_ne_mod_of_lt {n m c : Nat} (hlt : n < m) (hm : m < n + c) : n % c ≠ m % c := by
  intro heq
  have hdiff : |(m : Int) - n| < c := by rw [abs_lt]; omega
  exact hlt.ne (Nat.ModEq.eq_of_abs_lt heq hdiff)

theorem storeCode_cap (s : State) (d : Code) : (s.storeCode d).cap = s.cap := rfl

/-- R162: a write adds its code as the newest sample. What it overwrites is the sample `CAP` writes ago. -/
theorem storeCode_holdsSamples {s : State} {ds : List Code} (h : s.holdsSamples ds) (d : Code) :
    (s.storeCode d).holdsSamples (ds ++ [d]) := by
  have hlen : (ds ++ [d]).length = ds.length + 1 := List.length_append
  refine ⟨?_, fun n hrecent hn => ?_, fun n hn hncap => ?_⟩
  · rw [State.storeCode_cursor, h.cursor_eq, hlen, BitVec.ofNat_add]
  · rw [hlen] at hrecent hn
    rw [storeCode_cap] at hrecent ⊢
    rw [State.storeCode_ring, h.writeSlot_eq]
    obtain hold | rfl := Nat.lt_succ_iff_lt_or_eq.1 hn
    · rw [Memory.read_write_other _ d (mod_ne_mod_of_lt hold (by omega)), List.getElem?_append_left hold]
      exact h.read_recent n (by omega) hold
    · rw [Memory.read_write_same, List.getElem?_concat_length]
  · rw [hlen] at hn
    rw [storeCode_cap] at hncap
    have hother : n ≠ ds.length % s.cap := by
      rw [Nat.mod_eq_of_lt (by omega)]
      omega
    rw [State.storeCode_ring, h.writeSlot_eq, Memory.read_write_other _ d hother]
    exact h.read_unwritten n (by omega) hncap

/-- An operation other than `RESET` writes no sample and leaves cursor and slots alone, or it is a `TICK`
in an enabled ring and writes its code. -/
theorem after_written_cases {i : Instr} (hr : i ≠ .reset) (s : State) :
    (writtenCodes s.enabled [i] = [] ∧ (after i s).cursor = s.cursor ∧ (after i s).ring = s.ring) ∨
    ∃ d, writtenCodes s.enabled [i] = [d] ∧ after i s = s.storeCode d := by
  cases i
  case reset => exact absurd rfl hr
  case tick d =>
    by_cases hp : s.rphase = .idle
    · exact .inl (by simp [State.enabled, writtenCodes, Instr.tickCode, after, timerFire_idle hp, hp])
    · exact .inr ⟨d, by simp [State.enabled, writtenCodes, Instr.tickCode, hp], timerFire_enabled hp d⟩
  all_goals exact .inl (by simp [writtenCodes, Instr.tickCode, after])

theorem after_holdsSamples {i : Instr} (hr : i ≠ .reset) {s : State} {ds : List Code}
    (h : s.holdsSamples ds) : (after i s).holdsSamples (ds ++ writtenCodes s.enabled [i]) := by
  obtain ⟨hnone, hcur, hring⟩ | ⟨d, hone, ht⟩ := after_written_cases hr s
  · rw [hnone, List.append_nil]
    exact h.congr hcur hring (after_ringAw i s)
  · rw [hone, ht]
    exact storeCode_holdsSamples h d

/-- R166 over a list of operations: it adds the samples that its `TICK`s write. -/
theorem afterAll_holdsSamples {is : List Instr} (hr : ∀ i ∈ is, i ≠ .reset) {s : State} {ds : List Code}
    (h : s.holdsSamples ds) : (afterAll is s).holdsSamples (ds ++ writtenCodes s.enabled is) := by
  induction is generalizing s ds with
  | nil => simpa [writtenCodes] using h
  | cons i rest ih =>
    obtain ⟨hi, hrest⟩ := List.forall_mem_cons.1 hr
    rw [writtenCodes_cons, ← List.append_assoc, ← after_enabled hi]
    exact ih hrest (after_holdsSamples hi h)

/-- R166: in a full ring the slot of the next write holds the oldest sample. -/
theorem State.holdsSamples.read_oldest {s : State} {ds : List Code} (h : s.holdsSamples ds)
    (hfull : s.cap ≤ ds.length) :
    Memory.read s.ring (writeSlot s.ringAw s.cursor) = ds[ds.length - s.cap]? := by
  have hpos : 0 < s.cap := cap_pos s.ringAw
  rw [h.writeSlot_eq, Nat.mod_eq_sub_mod hfull]
  exact h.read_recent _ (by omega) (by omega)

/-- Settles O41: the ring of a `RESET` holds no sample, and every operation of the list adds those that it
writes. -/
theorem ringHoldsLastSamples : Obligations.RingHoldsLastSamples := by
  rintro s is ds hr rfl hlen
  have h : (afterAll is s.doReset).holdsSamples (writtenCodes false is) :=
    afterAll_holdsSamples hr (doReset_holdsSamples s)
  have hcap : (afterAll is s.doReset).cap = s.cap := by simp [State.cap]
  refine ⟨_, execAll_afterAll _ s, ?_, hcap ▸ h.read_recent, hcap ▸ h.read_unwritten,
    hcap ▸ h.read_oldest⟩
  rw [afterAll_cons, after, h.cursor_eq, BitVec.toNat_ofNat, Nat.mod_eq_of_lt hlen]

/-! ## `ARM`, `TICK` and `RDCURSOR` -/

/-- Settles O35: `ARM` is the assignment of the phase in `Idle`, and nothing elsewhere. -/
theorem armMovesIdleToArmed : Obligations.ArmMovesIdleToArmed :=
  ⟨Laws.RoundTrip.arm rfl, fun s hp => (exec_eq .arm s).trans (congrArg _ (armRing_idle hp)),
    fun s hp => (exec_eq .arm s).trans (congrArg _ (armRing_enabled hp))⟩

/-- R162: a `TICK` in an enabled ring is the write of its code. -/
theorem exec_tick_enabled {s : State} (hp : s.rphase ≠ .idle) (d : Code) :
    exec (.tick d) s = .next (s.storeCode d) :=
  (exec_eq _ s).trans (congrArg _ (timerFire_enabled hp d))

/-- Settles O36: in `Idle` nothing, else the write, whose slot is the only one that it changes. -/
theorem tickStoresAndAdvances : Obligations.TickStoresAndAdvances := by
  refine ⟨fun d => Laws.RoundTrip.tick d rfl, fun s d hp => ?_, fun s d hp => ?_⟩
  · rw [exec_eq, after, timerFire_idle hp]
  · exact ⟨s.storeCode d, exec_tick_enabled hp d, writeSlot_eq_mod _ _, Memory.read_write_same ..,
      fun n hn => ⟨Memory.read_write_other _ d hn, Memory.code_write_other _ d hn⟩, BitVec.toNat_add .., rfl, rfl⟩

/-- Settles O37: the cursor moves by one for each sample written, from the 0 of the `RESET`. -/
theorem cursorReadsWhole : Obligations.CursorReadsWhole := by
  refine ⟨Laws.RoundTrip.rdcursor rfl, exec_eq .rdcursor, fun s is hr => ?_⟩
  have hcur : (afterAll is s.doReset).cursor = BitVec.ofNat 32 (writtenCodes false is).length :=
    (afterAll_cursor hr s.doReset).trans (BitVec.zero_add _)
  exact ⟨_, _, execAll_afterAll _ s, exec_eq _ _, hcur ▸ rfl⟩

/-! ## `RDSLOT` -/

theorem zextCode_toNat (c : Code) : (zextCode c).toNat = c.toNat := by
  rw [zextCode, BitVec.toNat_append]
  simp

/-- R96: the number of a window address. -/
theorem slotAddr_eq_ofNat (i : Code) : BitVec.ofNat 17 (0x10000 + i.toNat) = slotAddr i := by
  have := i.isLt
  apply BitVec.eq_of_toNat_eq
  rw [slotAddr, BitVec.toNat_append, BitVec.toNat_ofNat, ← Nat.shiftLeft_add_eq_or_of_lt this,
    Nat.shiftLeft_eq, BitVec.toNat_ofNat]
  omega

/-- R168: a slot not written since the last `RESET` reads as some 16-bit value, and the read takes one free
value. -/
theorem exec_rdslot_unwritten {s : State} {i : Code} (h : Memory.read s.ring (readSlot s.ringAw i) = none) :
    ∃ v : Word, v.toNat < 2 ^ 16 ∧
      exec (.rdslot i) s = .next { s with reads := s.reads ++ [v], freeCtr := s.freeCtr + 1 } := by
  refine ⟨zextCode (Config.freeCode s.freeCtr), ?_, ?_⟩
  · rw [zextCode_toNat]
    exact BitVec.isLt _
  · rw [exec_eq, after, readRing_unwritten h]
    rfl

/-- R164: a read sees of its offset the slot alone. -/
theorem readRing_congr {s : State} {i j : Code} (h : readSlot s.ringAw i = readSlot s.ringAw j) :
    s.readRing i = s.readRing j := by
  simp only [State.readRing, h]

/-- R96, R164: an offset `CAP` further on names the same slot, the wrap at `2^16` included. -/
theorem readSlot_add_cap (aw : RingAw) (i : Code) :
    readSlot aw (i + BitVec.ofNat 16 aw.cap) = readSlot aw i := by
  rw [readSlot, readSlot, BitVec.toNat_add, BitVec.toNat_ofNat, Nat.add_mod_mod,
    Nat.mod_mod_of_dvd _ (cap_dvd_window aw), Nat.add_mod_right]

/-- Settles O39: the read takes a free value, and `RESET` makes the whole memory stale. -/
theorem unwrittenSlotsReadSomeCode : Obligations.UnwrittenSlotsReadSomeCode :=
  ⟨fun _ _ => exec_rdslot_unwritten, fun s => ⟨s.doReset, exec_eq .reset s,
    fun n => ⟨Memory.read_stale s.ring n, Memory.code_stale s.ring n⟩, rfl, rfl, rfl, rfl, rfl⟩⟩

/-- Settles O38: a slot written or not, and the slot as all that a read sees of its offset. -/
theorem slotReadsZeroExtended : Obligations.SlotReadsZeroExtended := by
  refine ⟨fun i => ?_, fun s i h => ?_, fun s i c h => ⟨zextCode c, zextCode_toNat c, ?_⟩,
    fun s i j h => ?_, fun s i => readSlot_add_cap s.ringAw i⟩
  · rw [slotAddr_eq_ofNat]
    exact Laws.RoundTrip.rdslot i rfl
  · obtain ⟨v, hv, ht⟩ := exec_rdslot_unwritten h
    exact ⟨_, v, hv, ht, rfl⟩
  · rw [exec_eq, after, readRing_written h]
    rfl
  · rw [exec_eq, exec_eq, after, after, readRing_congr h]

/-! ## The wrap of the cursor -/

/-- R165: the slot after the one at `c` is the next one modulo `CAP`. -/
theorem writeSlot_succ (aw : RingAw) (c : Word) : writeSlot aw (c + 1#32) = (writeSlot aw c + 1) % aw.cap := by
  rw [writeSlot_eq_mod aw c, Nat.mod_add_mod]
  exact writeSlot_add aw c 1

/-- R165: the last cursor value names the last slot, since slot 0 comes after it. -/
theorem writeSlot_last (aw : RingAw) : writeSlot aw 0xFFFFFFFF#32 = aw.cap - 1 := by
  have hnext : (writeSlot aw 0xFFFFFFFF#32 + 1) % aw.cap = 0 :=
    (writeSlot_succ aw 0xFFFFFFFF#32).symm.trans (Nat.zero_and _)
  have hle := Nat.le_of_dvd (Nat.succ_pos _) (Nat.dvd_of_mod_eq_zero hnext)
  have hlt := writeSlot_lt aw 0xFFFFFFFF#32
  omega

/-- R165: a difference of cursor values keeps its remainder modulo `CAP`, since `CAP` divides `2^32`. -/
theorem toNat_sub_mod_cap (aw : RingAw) (c k : Word) :
    ((c - k).toNat % aw.cap : Int) = ((c.toNat : Int) - k.toNat) % aw.cap := by
  have hdvd : (aw.cap : Int) ∣ 2 ^ 32 := mod_cast cap_dvd_cursor aw
  have hsub : ((c - k).toNat : Int) = ((c.toNat : Int) - k.toNat) % 2 ^ 32 := by
    have := k.isLt
    rw [BitVec.toNat_sub]
    omega
  rw [hsub, Int.emod_emod_of_dvd _ hdvd]

/-- Settles O40: slot 0 comes after slot `CAP - 1` as cursor 0 comes after the last cursor value. -/
theorem cursorWrapsThroughSlotZero : Obligations.CursorWrapsThroughSlotZero := by
  refine ⟨writeSlot_succ, fun s d e hp hc => ?_, fun aw c k => ?_⟩
  · have hwrap : (s.storeCode d).cursor = 0#32 := by rw [State.storeCode_cursor, hc]; rfl
    have hslot : writeSlot s.ringAw 0#32 = 0 := Nat.zero_and _
    refine ⟨s.storeCode d, (s.storeCode d).storeCode e, exec_tick_enabled hp d,
      exec_tick_enabled (by simp) e, hwrap, ?_, ?_, ?_⟩
    · rw [State.storeCode_ring, hc, writeSlot_last]
      exact Memory.read_write_same ..
    · rw [State.storeCode_cursor, hwrap]
      rfl
    · rw [State.storeCode_ring, hwrap, State.storeCode_ringAw, hslot]
      exact Memory.read_write_same ..
  · refine ⟨-(((c.toNat : Int) - k.toNat) / aw.cap), ?_⟩
    rw [toNat_sub_mod_cap, Int.emod_def]
    ring

end Sys2Proof.Machine
end

section
/-! The order of a coefficient load (spec/42_host_sequences.md R198): a shadow word is the one its `WRCOEF`
writes, so a load is determined by which writes it holds, and not by their order or the frames between. -/

namespace Sys2Proof.Machine

/-- R198: the writes of a `LOADSET` are those of the words of the bank with both lanes alike. -/
theorem mem_loadSet_iff {hp lp : CoefSet} {i : Instr} :
    i ∈ loadSet hp lp ↔ ∃ st k, i = .wrcoef st k (Bank.get ⟨hp, lp, hp, lp⟩ st k) := by
  constructor
  · intro h
    simp only [loadSet, loadStage, List.mem_append, List.mem_cons, List.not_mem_nil, or_false] at h
    obtain ((h | h) | h) | h := h
    all_goals obtain h | h | h | h | h := h <;> exact ⟨_, _, h⟩
  · rintro ⟨st, k, rfl⟩
    cases st <;> cases k <;> simp [loadSet, loadStage, Bank.get, Bank.stage, CoefSet.get]

/-- R12, R260: a shadow word stays unless it is written with another value or the block is reset. -/
theorem after_coefS_get {i : Instr} {st : Stage} {k : CoefIx} {v : Word} (hr : i ≠ .reset)
    (hw : ∀ w, i = .wrcoef st k w → w = v) {s : State} (h : s.coefS.get st k = v) :
    (after i s).coefS.get st k = v := by
  cases i
  case reset => exact absurd rfl hr
  case wrcoef st' k' w =>
    rw [after, State.putShadow_coefS]
    by_cases heq : (st, k) = (st', k')
    · obtain ⟨rfl, rfl⟩ := Prod.mk.inj heq
      rw [Bank.get_put_same, hw w rfl]
    · rw [Bank.get_put_other _ w heq, h]
  all_goals simpa [after] using h

/-- A list without `RESET` whose writes of one register all write `v`, one of them at least, leaves `v`
there. -/
theorem afterAll_coefS_get {is : List Instr} {st : Stage} {k : CoefIx} {v : Word}
    (hr : ∀ i ∈ is, i ≠ .reset) (hw : ∀ w, .wrcoef st k w ∈ is ↔ w = v) (s : State) :
    (afterAll is s).coefS.get st k = v := by
  obtain ⟨pre, post, rfl⟩ := List.append_of_mem ((hw v).2 rfl)
  rw [afterAll_append, afterAll_cons]
  refine afterAll_keeps (P := fun u => u.coefS.get st k = v) (Bank.get_put_same _ st k v) fun i hi u hu => ?_
  have hmem : i ∈ pre ++ .wrcoef st k v :: post := by simp [hi]
  exact after_coefS_get (hr i hmem) (fun w hiw => (hw w).1 (hiw ▸ hmem)) hu

/-- R198: a `LOADSET` in any order, with frames between its writes, loads the shadow bank. -/
theorem afterAll_coefS_of_perm_loadSet {hp lp : CoefSet} {is : List Instr}
    (h : (is.filter fun i => !i.isFrame).Perm (loadSet hp lp)) (s : State) :
    (afterAll is s).coefS = ⟨hp, lp, hp, lp⟩ := by
  have hmem : ∀ i : Instr, i.isFrame = false →
      (i ∈ is ↔ ∃ st k, i = .wrcoef st k (Bank.get ⟨hp, lp, hp, lp⟩ st k)) := by
    intro i hi
    rw [← mem_loadSet_iff, ← h.mem_iff, List.mem_filter, hi]
    exact (and_iff_left rfl).symm
  have hr : ∀ i ∈ is, i ≠ .reset := by
    rintro _ hi rfl
    obtain ⟨_, _, hne⟩ := (hmem .reset rfl).1 hi
    cases hne
  refine Bank.ext_get fun st k => afterAll_coefS_get hr (fun w => (hmem (.wrcoef st k w) rfl).trans ?_) s
  constructor
  · rintro ⟨_, _, heq⟩
    injection heq with hst hk hw
    rw [hst, hk, hw]
  · rintro rfl
    exact ⟨st, k, rfl⟩

/-- R60: the last operation of a list sees the state after those before it. -/
theorem execAll_concat (is : List Instr) (c : Instr) (s : State) :
    execAll (is ++ [c]) s = .next (after c (afterAll is s)) := by
  rw [execAll_afterAll, afterAll_append, afterAll_cons, afterAll_nil]

/-- Settles O32: either commit makes the loaded shadow bank the active one. -/
theorem anyLoadOrderGivesSameSet : Obligations.AnyLoadOrderGivesSameSet := by
  intro hp lp is s h
  have hload := afterAll_coefS_of_perm_loadSet h s
  have hactive {c : Instr} (hc : c = .commit ∨ c = .commitclr) :
      (after c (afterAll is s)).coefA = ⟨hp, lp, hp, lp⟩ := (after_commit_coefA hc _).trans hload
  exact ⟨⟨_, _, execAll_afterAll is s, execAll_concat is .commit s, hactive (.inl rfl), hload, rfl⟩,
    _, execAll_concat is .commitclr s, hactive (.inr rfl), rfl⟩

end Sys2Proof.Machine
end

section
/-! No operation faults or is refused (spec/60_exceptions.md R230). -/

namespace Sys2Proof.Machine

/-- Settles O8: the next state is `after i s`, which gives each of the seventeen operations one. -/
theorem everyOperationCompletes : Obligations.EveryOperationCompletes :=
  fun i s => ⟨after i s, exec_eq i s⟩

end Sys2Proof.Machine
end

section
/-! `FRAME` on a zero active bank, as before the first commit (spec/70_reset_and_hazards.md R264). -/

namespace Sys2Proof.Machine

/-- R120, R122: a lane with zero coefficients answers zero; its input goes into the highpass stage's history
and stops there. -/
theorem lane_zeroCoefs (hhp hlp : History) (x : Int) :
    lane .zero .zero hhp hlp x =
      ⟨⟨0#32, false, ⟨trunc 32 (toSig x), hhp.x1, 0#32, hhp.y1⟩⟩,
        ⟨0#32, false, ⟨0#32, hlp.x1, 0#32, hlp.y1⟩⟩, 0⟩ := by
  have hout : toS16 (0#32 : Word).toInt = 0 := by decide
  simp only [lane, biquad_zeroCoefs, hout]

/-- R264: the whole next state of a `FRAME` on a zero active bank. -/
theorem processFrame_zeroBank {s : State} (h : s.coefA = .zero) (w : Word) :
    s.processFrame w =
      { s with
        hist :=
          { hpl := ⟨trunc 32 (toSig (leftField w).toInt), s.hist.hpl.x1, 0#32, s.hist.hpl.y1⟩
            lpl := ⟨0#32, s.hist.lpl.x1, 0#32, s.hist.lpl.y1⟩
            hpr := ⟨trunc 32 (toSig (rightField w).toInt), s.hist.hpr.x1, 0#32, s.hist.hpr.y1⟩
            lpr := ⟨0#32, s.hist.lpr.x1, 0#32, s.hist.lpr.y1⟩ }
        frameCnt := s.frameCnt + 1#32
        out := s.out ++ [0#32] } := by
  have hl : s.leftLane w = lane .zero .zero s.hist.hpl s.hist.lpl (leftField w).toInt := by
    rw [State.leftLane, h]; rfl
  have hr : s.rightLane w = lane .zero .zero s.hist.hpr s.hist.lpr (rightField w).toInt := by
    rw [State.rightLane, h]; rfl
  have hout : pack 0 0 = 0#32 := by decide
  simp [State.processFrame, State.emit, hl, hr, lane_zeroCoefs, hout, isatAfter]

/-- Settles O20: the next state is `processFrame_zeroBank`'s, and the input conversion is exact. -/
theorem framesBeforeFirstCommit : Obligations.FramesBeforeFirstCommit := by
  intro s w h
  exact ⟨_, (exec_eq (.frame w) s).trans (congrArg _ (processFrame_zeroBank h w)), rfl, rfl, rfl,
    toInt_trunc32_toSig _, rfl, toInt_trunc32_toSig _, rfl, rfl, rfl, rfl, rfl⟩

end Sys2Proof.Machine
end

section
/-! What the event after a write sees (spec/70_reset_and_hazards.md R274). -/

namespace Sys2Proof.Machine

/-- R28, R96: the window offset that is the cursor's low half names the slot that the cursor names, since
`CAP` divides `2^16`. -/
theorem readSlot_setWidth_cursor (aw : RingAw) (c : Word) :
    readSlot aw (c.setWidth 16) = writeSlot aw c := by
  rw [readSlot, writeSlot_eq_mod, BitVec.toNat_setWidth, Nat.mod_mod_of_dvd _ (cap_dvd_window aw)]

/-- R162, R164: a `RDSLOT` of the slot just written returns the code written. -/
theorem readRing_storeCode (s : State) (d : Code) :
    (s.storeCode d).readRing (s.cursor.setWidth 16) = (s.storeCode d).answer (zextCode d) := by
  apply readRing_written
  rw [State.storeCode_ring, State.storeCode_ringAw, readSlot_setWidth_cursor]
  exact Memory.read_write_same ..

/-- Settles O49: each second event is performed on the state that the first one left. -/
theorem writesAreSeenByNextEvent : Obligations.WritesAreSeenByNextEvent := by
  refine ⟨fun st k v s => ?_, fun w s => ?_, fun d s hp => ?_⟩
  · refine ⟨_, execAll_afterAll _ s, ?_⟩
    exact congrArg (s.reads ++ [·]) (Bank.get_put_same s.coefS st k v)
  · exact ⟨_, _, execAll_afterAll _ s, exec_eq (.frame w) s.publish, rfl, rfl⟩
  · refine ⟨_, execAll_afterAll _ s, ?_⟩
    rw [afterAll_cons, afterAll_cons, afterAll_nil, after, after, timerFire_enabled hp, readRing_storeCode]
    rfl

end Sys2Proof.Machine
end

section
/-! `RESET`: the values it gives, and that no other operation sets them back
(spec/70_reset_and_hazards.md R260). -/

namespace Sys2Proof.Machine

/-- R25, R260: only `RESET` clears `ISAT`. -/
theorem after_isat_of_isat {i : Instr} (hr : i ≠ .reset) {s : State} (h : s.isat = true) :
    (after i s).isat = true := by
  obtain ⟨t, ht, hset⟩ := saturationFlagIsSticky i s
  obtain rfl := exec_next_iff.1 ht
  exact hset.2 ⟨hr, .inl h⟩

/-- R27, R260: only `RESET` returns the phase to `Idle`. -/
theorem after_rphase_ne_idle {i : Instr} (hr : i ≠ .reset) {s : State} (h : s.rphase ≠ .idle) :
    (after i s).rphase ≠ .idle := by
  have hs : s.enabled = true := decide_eq_true h
  have hafter : (after i s).enabled = true := by rw [after_enabled hr, hs, Bool.true_or]
  exact of_decide_eq_true hafter

/-- R28, R260: but for `RESET` an operation leaves the cursor or adds one to it. -/
theorem after_cursor_cases {i : Instr} (hr : i ≠ .reset) (s : State) :
    (after i s).cursor = s.cursor ∨ (after i s).cursor = s.cursor + 1#32 := by
  obtain ⟨-, hcur, -⟩ | ⟨d, -, ht⟩ := after_written_cases hr s
  · exact .inl hcur
  · exact .inr (congrArg State.cursor ht)

/-- R26, R260: but for `RESET` an operation leaves `FRAMECNT` or adds one to it. -/
theorem after_frameCnt_cases {i : Instr} (hr : i ≠ .reset) (s : State) :
    (after i s).frameCnt = s.frameCnt ∨ (after i s).frameCnt = s.frameCnt + 1#32 := by
  rw [after_frameCnt hr]
  cases i.isFrame
  · exact .inl (BitVec.add_zero _)
  · exact .inr rfl

/-- Settles O50: the fields of `doReset`, and what each other operation does to the four elements. -/
theorem resetEstablishesResetValues : Obligations.ResetEstablishesResetValues := by
  refine ⟨Laws.RoundTrip.reset rfl, fun s => ?_, fun i s hr => ?_⟩
  · exact ⟨s.doReset, exec_eq .reset s, fun st k => ⟨Bank.get_zero st k, Bank.get_zero st k⟩,
      Histories.stage_zero, rfl, rfl, rfl, rfl, Memory.code_stale s.ring⟩
  · exact ⟨after i s, exec_eq i s, after_isat_of_isat hr, after_rphase_ne_idle hr,
      after_cursor_cases hr s, after_frameCnt_cases hr s⟩

end Sys2Proof.Machine
end

section
/-! Event words written out in the spec (spec/95_test_vectors.md V9, V10, V11, V16). -/

namespace Sys2Proof.Machine

/-- Settles O6: every word but two is the encoding of its operation. The `CLRHIST` word has bits 31:4 of its
`CTRL` write set, which the decoder ignores (R91), and the last word sets `WE` at the `IN` port (R89). -/
theorem specEventWordsDecode : Obligations.SpecEventWordsDecode := by
  refine ⟨?reset, ?frame, ?tick, ?clrhist, ?wrcoef, ?rdcoef, ?rdslot, ?cmdrsvd, ?rdrsvd, ?wrrsvd, ?invalid⟩
  case reset => exact Laws.RoundTrip.reset rfl
  case frame => exact Laws.RoundTrip.frame 0x12345678#32 rfl
  case tick => exact Laws.RoundTrip.tick 0x00FF#16 rfl
  case clrhist => exact decode_busWrite ctrlAddr 0xFFFFFFF2#32
  case wrcoef => exact Laws.RoundTrip.wrcoef .hpr .a1 0x8527D1F5#32 rfl
  case rdcoef => exact Laws.RoundTrip.rdcoef .lpr .a2 rfl
  case rdslot => exact Laws.RoundTrip.rdslot 15#16 rfl
  case cmdrsvd => exact Laws.RoundTrip.cmdrsvd 9#4 rfl
  case rdrsvd => exact Laws.RoundTrip.rdrsvd 0x00025#17 rfl
  case wrrsvd => exact Laws.RoundTrip.wrrsvd 0x10000#17 0x0000BEEF#32 rfl
  case invalid => decide

end Sys2Proof.Machine
end
